-- ==== Sys2Proof/Word.lean ====
section
/-! DEFINITION. The word types of the machine (00_scope.md R7, R8; 10_state.md R40, R43, R44). -/

namespace Sys2Proof

/-- One byte of memory, one V register, the delay timer (10_state.md R40, R49; 20_memory.md R100). -/
abbrev Byte := BitVec 8

/-- An instruction word, the index register, the program counter, a stack entry (R43, R44, R47, R140). -/
abbrev Word := BitVec 16

/-- The field NNN: a 12-bit address (30_encoding.md R141). -/
abbrev Addr12 := BitVec 12

/-- The number of a register V0–VF (10_state.md R40). -/
abbrev Reg := Fin 16

/-- A key code 0–15 (10_state.md R50). -/
abbrev KeyCode := Fin 16

end Sys2Proof
end

