-- ==== Sys2Proof/Machine/Flags.lean ====
section
/-! DEFINITION. The values written to VF as a flag (10_state.md R42; 42_alu.md R265–R270; 44_draw.md R330). -/

namespace Sys2Proof.Machine

/-- `(c ? 1 : 0)` as a byte (00_scope.md R8). -/
def flag (c : Bool) : Byte := if c then 1 else 0

/-- Carry of 8XY4: the exact sum exceeds 255 (42_alu.md R265, R270). -/
def carryFlag (a b : Byte) : Byte := flag (decide (a.toNat + b.toNat > 255))

/-- No-borrow of 8XY5 and 8XY7: the minuend is strictly greater (42_alu.md R266, R268, R270). -/
def noBorrowFlag (minuend subtrahend : Byte) : Byte := flag (decide (minuend.toNat > subtrahend.toNat))

/-- The bit 8XY6 shifts out: bit 0 before the shift (42_alu.md R267). -/
def shiftedOutRight (a : Byte) : Byte := BitVec.ofNat 8 (a.toNat % 2)

/-- The bit 8XYE shifts out: bit 7 before the shift (42_alu.md R269). -/
def shiftedOutLeft (a : Byte) : Byte := BitVec.ofNat 8 (a.toNat / 128)

/-- Collision of DXYN: some pixel went from 1 to 0 (44_draw.md R330). -/
def collisionFlag (hit : Bool) : Byte := flag hit

end Sys2Proof.Machine
end

