-- ==== Sys2Proof/Syntax.lean ====
section
/-! DEFINITION. The 34 instructions of the decode map (30_encoding.md R144), one constructor a row of
spec/opcode_table.json. Register fields are register numbers; NN is a byte; NNN is a 12-bit address; N is a count. -/

namespace Sys2Proof

/-- An instruction with its operands (30_encoding.md R141, R143). The word pattern stands beside each constructor. -/
inductive Instr where
  | cls                                 -- 00E0
  | ret                                 -- 00EE
  | jp (nnn : Addr12)                   -- 1NNN
  | call (nnn : Addr12)                 -- 2NNN
  | seImm (x : Reg) (nn : Byte)         -- 3XNN
  | sneImm (x : Reg) (nn : Byte)        -- 4XNN
  | seReg (x y : Reg)                   -- 5XY0
  | ldImm (x : Reg) (nn : Byte)         -- 6XNN
  | addImm (x : Reg) (nn : Byte)        -- 7XNN
  | ldReg (x y : Reg)                   -- 8XY0
  | orReg (x y : Reg)                   -- 8XY1
  | andReg (x y : Reg)                  -- 8XY2
  | xorReg (x y : Reg)                  -- 8XY3
  | addReg (x y : Reg)                  -- 8XY4
  | subReg (x y : Reg)                  -- 8XY5
  | shr (x y : Reg)                     -- 8XY6, Y encoded but not read
  | subn (x y : Reg)                    -- 8XY7
  | shl (x y : Reg)                     -- 8XYE, Y encoded but not read
  | sneReg (x y : Reg)                  -- 9XY0
  | ldI (nnn : Addr12)                  -- ANNN
  | jpV0 (nnn : Addr12)                 -- BNNN
  | rnd (x : Reg) (nn : Byte)           -- CXNN
  | drw (x y : Reg) (n : Nat)           -- DXYN, N a count of rows
  | skp (x : Reg)                       -- EX9E
  | sknp (x : Reg)                      -- EXA1
  | ldVDt (x : Reg)                     -- FX07
  | ldVKey (x : Reg)                    -- FX0A
  | ldDtV (x : Reg)                     -- FX15
  | beep (x : Reg)                      -- FX18
  | addI (x : Reg)                      -- FX1E
  | ldGlyph (x : Reg)                   -- FX29
  | bcd (x : Reg)                       -- FX33
  | storeRegs (x : Reg)                 -- FX55
  | loadRegs (x : Reg)                  -- FX65
  deriving DecidableEq, Repr

end Sys2Proof
end

