-- ==== Sys2Proof/Decode.lean ====
section
/-! DEFINITION. The decoder, total on any bytes and rejecting by name (30_encoding.md R140–R146), the encoder
written from the same formats (R142), and the opcode table as rows of mask and pattern (spec/opcode_table.json). -/

namespace Sys2Proof

/-! ## Fields -/

/-- The unsigned field of `len` bits of `op` whose lowest bit is bit `lo` (00_scope.md R7). -/
def field (op : Word) (lo len : Nat) : Nat := op.toNat / 2 ^ lo % 2 ^ len

/-- C = op[15:12], the opcode category (30_encoding.md R141). -/
def fieldC (op : Word) : Nat := field op 12 4

/-- The register a 4-bit number names (30_encoding.md R143; 10_state.md R40). -/
def regOf (n : Nat) : Reg := ⟨n % 16, Nat.mod_lt n (by decide)⟩

/-- X = op[11:8] (30_encoding.md R141). -/
def fieldX (op : Word) : Reg := regOf (field op 8 4)

/-- Y = op[7:4] (30_encoding.md R141). -/
def fieldY (op : Word) : Reg := regOf (field op 4 4)

/-- N = op[3:0] (30_encoding.md R141). -/
def fieldN (op : Word) : Nat := field op 0 4

/-- NN = op[7:0] (30_encoding.md R141). -/
def fieldNN (op : Word) : Byte := BitVec.ofNat 8 (field op 0 8)

/-- NNN = op[11:0] (30_encoding.md R141). -/
def fieldNNN (op : Word) : Addr12 := BitVec.ofNat 12 (field op 0 12)

/-! ## Decoding -/

/-- Why a byte sequence is no instruction: one name for each bullet of 30_encoding.md R145, and one for a sequence
of fewer than two bytes. -/
inductive DecodeReject where
  | truncated          -- fewer than two bytes: no word to decode
  | illegalSystem      -- 0NNN other than 00E0 and 00EE
  | illegalSkipEq      -- 5XYn, n ≠ 0
  | illegalAlu         -- 8XYn, n in 8–D or F
  | illegalSkipNe      -- 9XYn, n ≠ 0
  | illegalKey         -- EXnn, nn not 9E or A1
  | illegalMisc        -- FXnn, nn not a row of category F
  deriving DecidableEq, Repr

/-- Category 0 (30_encoding.md R144): the whole word is fixed. -/
def decodeSystem (op : Word) : Except DecodeReject Instr :=
  match field op 0 12 with
  | 0x0E0 => .ok .cls
  | 0x0EE => .ok .ret
  | _ => .error .illegalSystem

/-- Category 8 (42_alu.md R260): N selects the operation. -/
def decodeAlu (op : Word) : Except DecodeReject Instr :=
  match fieldN op with
  | 0x0 => .ok (.ldReg (fieldX op) (fieldY op))
  | 0x1 => .ok (.orReg (fieldX op) (fieldY op))
  | 0x2 => .ok (.andReg (fieldX op) (fieldY op))
  | 0x3 => .ok (.xorReg (fieldX op) (fieldY op))
  | 0x4 => .ok (.addReg (fieldX op) (fieldY op))
  | 0x5 => .ok (.subReg (fieldX op) (fieldY op))
  | 0x6 => .ok (.shr (fieldX op) (fieldY op))
  | 0x7 => .ok (.subn (fieldX op) (fieldY op))
  | 0xE => .ok (.shl (fieldX op) (fieldY op))
  | _ => .error .illegalAlu

/-- Category E (30_encoding.md R144): NN selects the operation. -/
def decodeKey (op : Word) : Except DecodeReject Instr :=
  match field op 0 8 with
  | 0x9E => .ok (.skp (fieldX op))
  | 0xA1 => .ok (.sknp (fieldX op))
  | _ => .error .illegalKey

/-- Category F (30_encoding.md R144): NN selects the operation. -/
def decodeMisc (op : Word) : Except DecodeReject Instr :=
  match field op 0 8 with
  | 0x07 => .ok (.ldVDt (fieldX op))
  | 0x0A => .ok (.ldVKey (fieldX op))
  | 0x15 => .ok (.ldDtV (fieldX op))
  | 0x18 => .ok (.beep (fieldX op))
  | 0x1E => .ok (.addI (fieldX op))
  | 0x29 => .ok (.ldGlyph (fieldX op))
  | 0x33 => .ok (.bcd (fieldX op))
  | 0x55 => .ok (.storeRegs (fieldX op))
  | 0x65 => .ok (.loadRegs (fieldX op))
  | _ => .error .illegalMisc

/-- The instruction a word stands for, or why it stands for none (30_encoding.md R144–R146): the category first,
then the sub-operation field the category uses. The last arm is category F, since C has four bits. -/
def decodeWord (op : Word) : Except DecodeReject Instr :=
  match fieldC op with
  | 0x0 => decodeSystem op
  | 0x1 => .ok (.jp (fieldNNN op))
  | 0x2 => .ok (.call (fieldNNN op))
  | 0x3 => .ok (.seImm (fieldX op) (fieldNN op))
  | 0x4 => .ok (.sneImm (fieldX op) (fieldNN op))
  | 0x5 => if fieldN op = 0 then .ok (.seReg (fieldX op) (fieldY op)) else .error .illegalSkipEq
  | 0x6 => .ok (.ldImm (fieldX op) (fieldNN op))
  | 0x7 => .ok (.addImm (fieldX op) (fieldNN op))
  | 0x8 => decodeAlu op
  | 0x9 => if fieldN op = 0 then .ok (.sneReg (fieldX op) (fieldY op)) else .error .illegalSkipNe
  | 0xA => .ok (.ldI (fieldNNN op))
  | 0xB => .ok (.jpV0 (fieldNNN op))
  | 0xC => .ok (.rnd (fieldX op) (fieldNN op))
  | 0xD => .ok (.drw (fieldX op) (fieldY op) (fieldN op))
  | 0xE => decodeKey op
  | _ => decodeMisc op

/-- Two bytes joined big-endian, the first the high byte (20_memory.md R105). -/
def wordOfBytes (hi lo : Byte) : Word := BitVec.ofNat 16 (hi.toNat * 256 + lo.toNat)

/-- The high byte op[15:8] of a word, the one at the lower address (20_memory.md R105). -/
def highByte (op : Word) : Byte := BitVec.ofNat 8 (field op 8 8)

/-- The low byte op[7:0] of a word, the one at the higher address (20_memory.md R105). -/
def lowByte (op : Word) : Byte := BitVec.ofNat 8 (field op 0 8)

/-- Decode the front of a byte sequence: the instruction and the rest. Exactly two bytes are consumed
(30_encoding.md R140). -/
def decode : List Byte → Except DecodeReject (Instr × List Byte)
  | hi :: lo :: rest =>
    match decodeWord (wordOfBytes hi lo) with
    | .ok i => .ok (i, rest)
    | .error e => .error e
  | _ => .error .truncated

/-! ## Encoding -/

/-- Formats FXY, FALU and FD: category, X, Y and a last nibble (30_encoding.md R142). -/
def packXYN (c : Nat) (x y : Reg) (n : Nat) : Word :=
  BitVec.ofNat 16 (c * 4096 + x.val * 256 + y.val * 16 + n)

/-- Formats FXK and FXS: category, X and a low byte (30_encoding.md R142). -/
def packXNN (c : Nat) (x : Reg) (nn : Byte) : Word :=
  BitVec.ofNat 16 (c * 4096 + x.val * 256 + nn.toNat)

/-- Format FA: category and a 12-bit address (30_encoding.md R142). -/
def packNNN (c : Nat) (nnn : Addr12) : Word :=
  BitVec.ofNat 16 (c * 4096 + nnn.toNat)

/-- The word of an instruction, from the encodings of opcode_table.json (30_encoding.md R142, R144). -/
def encode : Instr → Word
  | .cls => 0x00E0
  | .ret => 0x00EE
  | .jp nnn => packNNN 0x1 nnn
  | .call nnn => packNNN 0x2 nnn
  | .seImm x nn => packXNN 0x3 x nn
  | .sneImm x nn => packXNN 0x4 x nn
  | .seReg x y => packXYN 0x5 x y 0x0
  | .ldImm x nn => packXNN 0x6 x nn
  | .addImm x nn => packXNN 0x7 x nn
  | .ldReg x y => packXYN 0x8 x y 0x0
  | .orReg x y => packXYN 0x8 x y 0x1
  | .andReg x y => packXYN 0x8 x y 0x2
  | .xorReg x y => packXYN 0x8 x y 0x3
  | .addReg x y => packXYN 0x8 x y 0x4
  | .subReg x y => packXYN 0x8 x y 0x5
  | .shr x y => packXYN 0x8 x y 0x6
  | .subn x y => packXYN 0x8 x y 0x7
  | .shl x y => packXYN 0x8 x y 0xE
  | .sneReg x y => packXYN 0x9 x y 0x0
  | .ldI nnn => packNNN 0xA nnn
  | .jpV0 nnn => packNNN 0xB nnn
  | .rnd x nn => packXNN 0xC x nn
  | .drw x y n => packXYN 0xD x y n
  | .skp x => packXNN 0xE x 0x9E
  | .sknp x => packXNN 0xE x 0xA1
  | .ldVDt x => packXNN 0xF x 0x07
  | .ldVKey x => packXNN 0xF x 0x0A
  | .ldDtV x => packXNN 0xF x 0x15
  | .beep x => packXNN 0xF x 0x18
  | .addI x => packXNN 0xF x 0x1E
  | .ldGlyph x => packXNN 0xF x 0x29
  | .bcd x => packXNN 0xF x 0x33
  | .storeRegs x => packXNN 0xF x 0x55
  | .loadRegs x => packXNN 0xF x 0x65

/-- The two bytes of an instruction as memory holds them, lower address first (20_memory.md R105). -/
def encodeBytes (i : Instr) : List Byte := [highByte (encode i), lowByte (encode i)]

/-! ## The opcode table -/

/-- One row of opcode_table.json: a word is of the row exactly when `word AND mask = pattern`. -/
structure Row where
  pattern : Word
  mask : Word
  deriving DecidableEq, Repr

/-- The word lies in the row. -/
def Row.covers (r : Row) (op : Word) : Bool := decide (op &&& r.mask = r.pattern)

/-- No word can lie in both rows: they disagree on a bit both fix. -/
def Row.disjoint (r q : Row) : Bool := decide (r.pattern &&& q.mask ≠ q.pattern &&& r.mask)

/-- The rows of opcode_table.json, in its order. -/
def opcodeTable : List Row :=
  [⟨0x00E0, 0xFFFF⟩, ⟨0x00EE, 0xFFFF⟩, ⟨0x1000, 0xF000⟩, ⟨0x2000, 0xF000⟩, ⟨0x3000, 0xF000⟩, ⟨0x4000, 0xF000⟩,
   ⟨0x5000, 0xF00F⟩, ⟨0x6000, 0xF000⟩, ⟨0x7000, 0xF000⟩] ++
  [⟨0x8000, 0xF00F⟩, ⟨0x8001, 0xF00F⟩, ⟨0x8002, 0xF00F⟩, ⟨0x8003, 0xF00F⟩, ⟨0x8004, 0xF00F⟩, ⟨0x8005, 0xF00F⟩,
   ⟨0x8006, 0xF00F⟩, ⟨0x8007, 0xF00F⟩, ⟨0x800E, 0xF00F⟩] ++
  [⟨0x9000, 0xF00F⟩, ⟨0xA000, 0xF000⟩, ⟨0xB000, 0xF000⟩, ⟨0xC000, 0xF000⟩, ⟨0xD000, 0xF000⟩, ⟨0xE09E, 0xF0FF⟩,
   ⟨0xE0A1, 0xF0FF⟩] ++
  [⟨0xF007, 0xF0FF⟩, ⟨0xF00A, 0xF0FF⟩, ⟨0xF015, 0xF0FF⟩, ⟨0xF018, 0xF0FF⟩, ⟨0xF01E, 0xF0FF⟩, ⟨0xF029, 0xF0FF⟩,
   ⟨0xF033, 0xF0FF⟩, ⟨0xF055, 0xF0FF⟩, ⟨0xF065, 0xF0FF⟩]

/-! ## The host's entry -/

/-- The instruction the decoder reads from a table word: bit 0 is the least significant bit of the word, bits above
`nbits` are 0, and the word is laid out big-endian for the decoder (20_memory.md R105). -/
def decodeTableWord (nbits w : Nat) : Option Instr :=
  let op : Word := BitVec.ofNat 16 (w % 2 ^ nbits)
  match decode [highByte op, lowByte op] with
  | .ok (i, _) => some i
  | .error _ => none

end Sys2Proof
end

