-- ==== Sys2Proof/Machine/Framebuffer.lean ====
section
/-! DEFINITION. The framebuffer, a grid of 64 × 32 one-bit pixels addressed [row][column] (10_state.md R51), and the
XOR compositing of a sprite onto it (44_draw.md R330, R331). -/

namespace Sys2Proof.Machine

/-- 32 rows of 64 pixels; `true` is an active pixel (10_state.md R51). -/
abbrev Framebuffer := Vector (Vector Bool 64) 32

/-- A row number reduced mod 32 (44_draw.md R331). -/
def rowOf (n : Nat) : Fin 32 := ⟨n % 32, Nat.mod_lt n (by decide)⟩

/-- A column number reduced mod 64 (44_draw.md R331). -/
def colOf (n : Nat) : Fin 64 := ⟨n % 64, Nat.mod_lt n (by decide)⟩

/-- The pixel `fb[y][x]` (10_state.md R51). -/
def Framebuffer.pixel (fb : Framebuffer) (y : Fin 32) (x : Fin 64) : Bool := (fb.get y).get x

/-- `fb[y][x] <- b`. -/
def Framebuffer.setPixel (fb : Framebuffer) (y : Fin 32) (x : Fin 64) (b : Bool) : Framebuffer :=
  fb.set y.val ((fb.get y).set x.val b x.isLt) y.isLt

/-- Every pixel 0 (40_system_flow.md R200, 10_state.md R65). -/
def Framebuffer.clear : Framebuffer := Vector.replicate 32 (Vector.replicate 64 false)

/-- A draw under way: the grid so far, and whether a pixel has gone from 1 to 0 (44_draw.md R330, `hit`). -/
structure Canvas where
  fb : Framebuffer
  hit : Bool
  deriving DecidableEq, Repr

/-- One sprite bit onto one pixel: a 1 bit flips the pixel, and a pixel that was 1 is a collision; a 0 bit leaves it
(44_draw.md R330). -/
def Canvas.drawBit (d : Canvas) (y : Fin 32) (x : Fin 64) (bit : Bool) : Canvas :=
  if bit then { fb := d.fb.setPixel y x (!d.fb.pixel y x), hit := d.hit || d.fb.pixel y x } else d

/-- The leftmost `k` bits of one row byte, most significant bit leftmost, columns reduced mod 64 (44_draw.md R331). -/
def Canvas.drawBits (d : Canvas) (y : Fin 32) (ox : Nat) (row : Byte) : Nat → Canvas
  | 0 => d
  | k + 1 => (d.drawBits y ox row k).drawBit y (colOf (ox + k)) (row.getLsbD (7 - k))

/-- The rows of a sprite from framebuffer row `oy` down, rows reduced mod 32 (44_draw.md R331). -/
def Canvas.drawRows (d : Canvas) (ox : Nat) : Nat → List Byte → Canvas
  | _, [] => d
  | oy, row :: rows => (d.drawBits (rowOf oy) ox row 8).drawRows ox (oy + 1) rows

/-- A whole sprite with its origin at column `ox`, row `oy`; `hit` starts at 0 (44_draw.md R330). -/
def drawSprite (fb : Framebuffer) (ox oy : Nat) (rows : List Byte) : Canvas :=
  Canvas.drawRows { fb := fb, hit := false } ox oy rows

end Sys2Proof.Machine
end

