-- ==== Sys2Proof/Config.lean ====
section
/-! DEFINITION. The machine's parameters (00_scope.md R6): the fixed sizes, the configuration a run is made with,
the reset values a run starts from, the host's events, and the free values (the debounce window W, the random bytes and the
order of the host's events). -/

namespace Sys2Proof

/-- `MEM_SIZE`: 4096 bytes, addresses 0x000–0xFFF (00_scope.md R6, 20_memory.md R100). -/
abbrev memSize : Nat := 4096

/-- `PROG_BASE`: where the program image starts (00_scope.md R6, 20_memory.md R102). -/
abbrev progBase : Nat := 0x200

/-- `MAX_IMAGE`: the longest image, 4096 − 0x200 bytes (00_scope.md R6, 70_reset_and_hazards.md R602). -/
abbrev maxImage : Nat := memSize - progBase

/-- The bytes of the font, 16 glyphs of 5 (20_memory.md R103). -/
abbrev fontSize : Nat := 80

/-- The parameters that matter while a run lasts (00_scope.md R6). They are fixed for the run: State carries one value
of this type and no event changes it, so a statement about every state holds for every configuration.
DESIGN CHOICE, log entry 5. -/
structure Config where
  /-- `DEBOUNCE_WINDOW` W, in cycles (60_exceptions.md R513); open, log entry 4. -/
  window : Nat
  /-- `LOW_WRITE_PROTECT` (20_memory.md R109). -/
  lowWriteProtect : Bool
  /-- `FONT`, the bytes at 0x000–0x04F after reset (20_memory.md R103). -/
  font : Vector Byte fontSize
  /-- `MEM_FILL`, every byte outside the font and the image after reset (10_state.md R66). -/
  memFill : Byte
  deriving DecidableEq, Repr

/-- The parameters that matter only at reset: `RESET_V`, `RESET_I` and `RESET_DT` (00_scope.md R6). -/
structure ResetValues where
  v : Vector Byte 16
  i : Word
  dt : Byte
  deriving DecidableEq, Repr

/-- An event the host delivers (60_exceptions.md R512); a key code is 0–15 by its type (R519). -/
inductive HostEvent where
  | cycle
  | tick
  | keyDown (k : KeyCode)
  | keyUp (k : KeyCode)
  deriving DecidableEq, Repr, Inhabited

/-- FREE VALUE: the debounce window W of the machine that `State.reset` builds. The source calls it configuration and
gives no length (00_scope.md R6; 92_eei_decisions.md D15). Log entry 4. -/
opaque Config.freeWindow : Nat

/-- FREE VALUE: the byte the random source answers at its n-th draw that no supplied byte covers; successive bytes are
unconstrained (43_reg_skip_index_jump_rand.md R303, 60_exceptions.md R515; D18). Log entry 3. -/
opaque Config.freeRand : Nat → Byte

/-- FREE VALUE: the n-th event the host delivers that no schedule names. Nothing constrains the sequence, so it can be any
interleaving of Cycles, Ticks and key events, without end (60_exceptions.md R510; D16). Log entry 2. -/
opaque Config.freeEvent : Nat → HostEvent

end Sys2Proof
end

