-- ==== Sys2Proof/Machine/Defaults.lean ====
section
/-! DEFINITION. The default values of the parameters the spec decides (00_scope.md R6, status "decided"), and what a
memory byte holds after reset when no image covers it (10_state.md R66). -/

namespace Sys2Proof.Machine

/-- The glyph rows of the default `FONT`, glyphs 0–F of five bytes each (20_memory.md R103, decision D6). The spec marks
the bytes as general knowledge (G1): PRESUMED, log entry 7. -/
def glyphRows : List Byte :=
  [0xF0, 0x90, 0x90, 0x90, 0xF0,  0x20, 0x60, 0x20, 0x20, 0x70,
   0xF0, 0x10, 0xF0, 0x80, 0xF0,  0xF0, 0x10, 0xF0, 0x10, 0xF0] ++
  [0x90, 0x90, 0xF0, 0x10, 0x10,  0xF0, 0x80, 0xF0, 0x10, 0xF0,
   0xF0, 0x80, 0xF0, 0x90, 0xF0,  0xF0, 0x10, 0x20, 0x40, 0x40] ++
  [0xF0, 0x90, 0xF0, 0x90, 0xF0,  0xF0, 0x90, 0xF0, 0x10, 0xF0,
   0xF0, 0x90, 0xF0, 0x90, 0x90,  0xE0, 0x90, 0xE0, 0x90, 0xE0] ++
  [0xF0, 0x80, 0x80, 0x80, 0xF0,  0xE0, 0x90, 0x90, 0x90, 0xE0,
   0xF0, 0x80, 0xF0, 0x80, 0xF0,  0xF0, 0x80, 0xF0, 0x80, 0x80]

/-- The default `FONT` (20_memory.md R103). -/
def defaultFont : Vector Byte fontSize := ⟨⟨glyphRows⟩, rfl⟩

/-- The default `MEM_FILL`, 0x00 (10_state.md R66, decision D5). DESIGN CHOICE, log entry 6. -/
def defaultFill : Byte := 0x00

/-- The default `LOW_WRITE_PROTECT`, true (20_memory.md R109, decision D9). DESIGN CHOICE, log entry 5. -/
def defaultProtect : Bool := true

/-- The configuration of `State.reset`: the decided defaults, and W left open. -/
def defaultConfig : Config :=
  { window := Config.freeWindow, lowWriteProtect := defaultProtect, font := defaultFont, memFill := defaultFill }

/-- The default reset values: 0 for V0–VF, I and DT (10_state.md R60–R62, decision D2). DESIGN CHOICE, log entry 8. -/
def defaultResetValues : ResetValues :=
  { v := Vector.replicate 16 0, i := 0, dt := 0 }

/-- What a byte holds after reset where no image covers it: the font at 0x000–0x04F, `MEM_FILL` elsewhere
(10_state.md R66, 20_memory.md R103). This is what an unlisted address of the memory reads as. -/
def resetByte (c : Config) (a : Nat) : Byte :=
  if h : a < fontSize then c.font[a] else c.memFill

end Sys2Proof.Machine
end

