-- ==== Sys2Proof/Machine/Memory.lean ====
section
/-! DEFINITION. The memory array as plain data (20_memory.md R100): a list of (address, byte) pairs in one canonical
form, addresses strictly rising and no entry equal to the reset contents, with reading, writing and loading. -/

namespace Sys2Proof.Machine

/-- The listed bytes of the memory; every other address holds its reset contents. -/
abbrev Memory := List Host.Cell

/-- The byte listed for an address, if one is. -/
def Memory.lookup : Memory → Nat → Option Byte
  | [], _ => none
  | (k, b) :: m, a => if k = a then some b else Memory.lookup m a

/-- The byte at an address: the last one written, or the reset contents (20_memory.md R113). -/
def Memory.read (c : Config) (m : Memory) (a : Nat) : Byte := (m.lookup a).getD (resetByte c a)

/-- Put an entry before a list of later addresses, unless it says what an unlisted address reads as anyway. -/
def Memory.listed (c : Config) (a : Nat) (b : Byte) (m : Memory) : Memory :=
  if b = resetByte c a then m else (a, b) :: m

/-- Write one byte (00_scope.md R9), keeping the canonical form. -/
def Memory.write (c : Config) : Memory → Nat → Byte → Memory
  | [], a, b => Memory.listed c a b []
  | (k, x) :: m, a, b =>
    if a < k then Memory.listed c a b ((k, x) :: m)
    else if a = k then Memory.listed c a b m
    else (k, x) :: Memory.write c m a b

/-- Every entry from `lo` on: addresses rise strictly from `lo`, stay below `MEM_SIZE`, and no entry equals the reset
contents. -/
def Memory.wfFrom (c : Config) : Nat → Memory → Bool
  | _, [] => true
  | lo, (k, b) :: m => decide (lo ≤ k ∧ k < memSize ∧ b ≠ resetByte c k) && Memory.wfFrom c (k + 1) m

/-- The canonical form of the memory. -/
def Memory.wf (c : Config) (m : Memory) : Bool := Memory.wfFrom c 0 m

/-- Place bytes verbatim from an address upward (20_memory.md R104). -/
def Memory.place (c : Config) : Memory → Nat → List Byte → Memory
  | m, _, [] => m
  | m, a, b :: bs => Memory.place c (Memory.write c m a b) (a + 1) bs

end Sys2Proof.Machine
end

