-- ==== Sys2Proof/Machine/State.lean ====
section
/-! DEFINITION. The state of the machine (10_state.md R40–R69) as plain data, its reasons to stop, and its reset. -/

namespace Sys2Proof.Machine

/-- Why a step would stop the machine without a next state. There is no reason: each of the spec's four fatal errors
has a described effect (60_exceptions.md R503: halt, record, Fault event), so it is taken as a NEXT state
(log entry 1). The type is closed and empty; nobody raises it, which is safe. -/
inductive Fault where
  deriving DecidableEq, Repr

/-- Why an instruction would be given no meaning. -/
inductive Refusal where
  /-- Raised only by an arm of `exec` whose instruction has no meaning yet, under the table's mnemonic. Safe. No arm of
  this model raises it. -/
  | notModelled (mnemonic : String)
  deriving DecidableEq, Repr

/-- The kinds of fatal error (60_exceptions.md R500). -/
inductive ErrorKind where
  | decodeError
  | addressRangeError
  | stackOverflow
  | stackUnderflow
  deriving DecidableEq, Repr

/-- The fault record `(code, pc, op, addr)` (60_exceptions.md R502). `addr` is an exact number, since a data address
I + k is not reduced (20_memory.md R108). -/
structure FaultRecord where
  kind : ErrorKind
  pc : Word
  op : Option Word
  addr : Option Nat
  deriving DecidableEq, Repr

/-- The run status (10_state.md R52). -/
inductive RunStatus where
  | running
  | halted
  deriving DecidableEq, Repr

/-- An event the core emits to the host (60_exceptions.md R512): the framebuffer's snapshot, the beep's byte, the
fault record. -/
inductive OutEvent where
  | present (fb : Framebuffer)
  | beep (v : Byte)
  | fault (r : FaultRecord)
  deriving DecidableEq, Repr

/-- The whole machine. The fields up to `fault` are the spec's (10_state.md R69); `cfg` holds its parameters
(00_scope.md R6); the last five are the model's own, the ports of 60_exceptions.md R512 as plain data. -/
structure State where
  /-- V0–VF (R40); VF is `v[15]` (R41). -/
  v : Vector Byte 16
  /-- The index register I (R43). -/
  i : Word
  /-- The program counter: between cycles, the next instruction's address (R44). -/
  pc : Word
  /-- The stack pointer: `none` is the empty sentinel −1, `some k` the index of the newest entry (R48). Log entry 9. -/
  sp : Option (Fin 16)
  /-- stack[0]–stack[15] (R47). -/
  stack : Vector Word 16
  /-- The delay timer DT (R49). -/
  dt : Byte
  /-- The key latch: the most recently pressed key, or none (R50). -/
  key : Option KeyCode
  /-- Cycles since the last accepted key change, saturating at W (R50). -/
  kcnt : Nat
  /-- The framebuffer (R51). -/
  fb : Framebuffer
  /-- Memory (20_memory.md R100). -/
  mem : Memory
  /-- The run status (R52). -/
  status : RunStatus
  /-- The fault record; none before any fault (R52). -/
  fault : Option FaultRecord
  /-- The parameters of this machine, fixed for the run (00_scope.md R6). Log entry 5. -/
  cfg : Config
  /-- Host events still to be delivered, oldest first; when none is left the free values go on (R510). Log entry 2. -/
  schedule : List HostEvent
  /-- How many events the free value has delivered (R510). Log entry 2. -/
  arrivals : Nat
  /-- Random bytes the host has supplied and no draw has used, oldest first (R515). Log entry 3. -/
  randIn : List Byte
  /-- How many draws the free value has answered (R515). Log entry 3. -/
  draws : Nat
  /-- The events emitted so far, oldest first (R512). Log entry 12. -/
  out : List OutEvent
  deriving DecidableEq, Repr

/-- The machine after reset with an empty image, under any parameters (70_reset_and_hazards.md R601; 10_state.md
R60–R68). No event has been emitted, and the host's ports are empty (DESIGN CHOICE, log entry 29). -/
def State.resetWith (c : Config) (r : ResetValues) : State :=
  { v := r.v
    i := r.i
    pc := 0x200
    sp := none
    stack := Vector.replicate 16 0
    dt := r.dt
    key := none
    kcnt := c.window
    fb := Framebuffer.clear
    mem := []
    status := .running
    fault := none
    cfg := c
    schedule := []
    arrivals := 0
    randIn := []
    draws := 0
    out := [] }

/-- The machine right after reset, with the spec's default parameters, W open, and no image (10_state.md R60–R69). -/
def State.reset : State := State.resetWith defaultConfig defaultResetValues

end Sys2Proof.Machine
end

