-- ==== Sys2Proof/Machine/Ops.lean ====
section
/-! DEFINITION. The named operations over registers, memory, stack, key latch, timer and ports, and the taking of a
fatal error. The meanings of the instructions are written over these. -/

namespace Sys2Proof.Machine

/-- What a meaning answers. -/
abbrev Result := Host.Outcome State Fault Refusal

/-! ## Registers -/

/-- The number of VF, the flag register (10_state.md R41). -/
abbrev regF : Reg := 15

/-- `V[r]` (00_scope.md R9). -/
def State.reg (s : State) (r : Reg) : Byte := s.v.get r

/-- `V[r] <- b` (00_scope.md R9). -/
def State.setReg (s : State) (r : Reg) (b : Byte) : State := { s with v := s.v.set r.val b r.isLt }

/-- `I <- w`. -/
def State.setIndex (s : State) (w : Word) : State := { s with i := w }

/-- `DT <- b`. -/
def State.setTimer (s : State) (b : Byte) : State := { s with dt := b }

/-! ## The program counter -/

/-- `pc <- w`. -/
def State.jump (s : State) (w : Word) : State := { s with pc := w }

/-- `pc_next`: the post-fetch address pc0 + 2 (00_scope.md R10). In a cycle pc0 ≤ 0xFFE, so the sum is exact
(log entry 19). -/
def State.pcNext (s : State) : Word := s.pc + 2

/-- `pc <- pc_next` (10_state.md R45). -/
def State.advance (s : State) : State := s.jump s.pcNext

/-- A skip: `pc <- pc0 + 4` when it is taken, else `pc <- pc_next` (41_skip_load_imm.md R235). -/
def State.skipIf (s : State) (taken : Bool) : State := if taken then s.jump (s.pc + 4) else s.advance

/-! ## Memory -/

/-- `MemRead(a, 1)` (00_scope.md R9). -/
def State.readByte (s : State) (a : Nat) : Byte := s.mem.read s.cfg a

/-- `MemWrite(a, 1, b)` (00_scope.md R9). -/
def State.writeByte (s : State) (a : Nat) (b : Byte) : State := { s with mem := s.mem.write s.cfg a b }

/-- A byte at `a` may be read by a data access (20_memory.md R108). -/
def readable (a : Nat) : Bool := decide (a < memSize)

/-- A byte at `a` may be written by a data access (20_memory.md R109). -/
def writable (c : Config) (a : Nat) : Bool :=
  decide (a < memSize) && (!c.lowWriteProtect || decide (progBase ≤ a))

/-- The first of the addresses base, base + 1, …, base + n − 1 that fails a check (60_exceptions.md R507: the lowest).
The sums are exact (20_memory.md R108). -/
def firstBad (ok : Nat → Bool) (base : Nat) : Nat → Option Nat
  | 0 => none
  | n + 1 =>
    match firstBad ok base n with
    | some a => some a
    | none => if ok (base + n) then none else some (base + n)

/-- The n bytes at base, base + 1, … in rising order (20_memory.md R110, R113). -/
def State.readBlock (s : State) : Nat → Nat → List Byte
  | _, 0 => []
  | base, n + 1 => s.readByte base :: s.readBlock (base + 1) n

/-! ## Fatal errors -/

/-- The error's number in the fault record (60_exceptions.md R500, decision D24). -/
def ErrorKind.code : ErrorKind → Nat
  | .decodeError => 1
  | .addressRangeError => 2
  | .stackOverflow => 3
  | .stackUnderflow => 4

/-- Emit an output event (60_exceptions.md R512). -/
def State.emit (s : State) (e : OutEvent) : State := { s with out := s.out ++ [e] }

/-- The core halted with a fault record: the status, the record and one Fault event, nothing else
(60_exceptions.md R503). -/
def State.halt (s : State) (r : FaultRecord) : State :=
  ({ s with status := .halted, fault := some r } : State).emit (.fault r)

/-- Take a fatal error (60_exceptions.md R502, R503): `s` is the state from before the cycle, so nothing of the cycle
commits and pc still holds pc0. There is no return from it (R505). -/
def raise (kind : ErrorKind) (op : Option Word) (addr : Option Nat) (s : State) : Result :=
  .next (s.halt { kind := kind, pc := s.pc, op := op, addr := addr })

/-- Check the n addresses from base before any access takes effect: the lowest bad one raises AddressRangeError, else
the instruction goes on (20_memory.md R108–R110, 60_exceptions.md R507). -/
def checked (ok : Nat → Bool) (base n : Nat) (op : Word) (s : State) (body : Result) : Result :=
  match firstBad ok base n with
  | some a => raise .addressRangeError (some op) (some a) s
  | none => body

/-! ## The stack -/

/-- SP + 1, or none when all 16 entries are in use (10_state.md R48). -/
def nextSlot : Option (Fin 16) → Option (Fin 16)
  | none => some 0
  | some k => if h : k.val + 1 < 16 then some ⟨k.val + 1, h⟩ else none

/-- SP − 1 of a stack whose newest entry is k (10_state.md R48). -/
def slotBelow (k : Fin 16) : Option (Fin 16) :=
  if k.val = 0 then none else some ⟨k.val - 1, by omega⟩

/-- `SP <- SP + 1; stack[SP] <- w`, the new SP being k (40_system_flow.md R203, R204). -/
def State.push (s : State) (k : Fin 16) (w : Word) : State :=
  { s with sp := some k, stack := s.stack.set k.val w k.isLt }

/-- `SP <- SP - 1` from SP = k; the popped entry keeps its value (40_system_flow.md R201, 10_state.md R54). -/
def State.drop (s : State) (k : Fin 16) : State := { s with sp := slotBelow k }

/-! ## The random source -/

/-- One draw: the oldest supplied byte, or the next free value (60_exceptions.md R515). DESIGN CHOICE, log entry 3. -/
def State.randByte (s : State) : Byte :=
  match s.randIn with
  | b :: _ => b
  | [] => Config.freeRand s.draws

/-- The state after one draw: the byte is consumed (43_reg_skip_index_jump_rand.md R303). -/
def State.consumeRand (s : State) : State :=
  match s.randIn with
  | _ :: bs => { s with randIn := bs }
  | [] => { s with draws := s.draws + 1 }

/-! ## The fetch -/

/-- 0x200 ≤ pc ≤ 0xFFE: the pc may be fetched from (20_memory.md R106). -/
def State.fetchable (s : State) : Bool := decide (0x200 ≤ s.pc.toNat ∧ s.pc.toNat ≤ 0xFFE)

/-- The two bytes at pc and pc + 1, at any alignment (20_memory.md R105, R107). -/
def State.fetchBytes (s : State) : List Byte := s.readBlock s.pc.toNat 2

/-- The word at pc, big-endian (20_memory.md R105). -/
def State.fetchWord (s : State) : Word := wordOfBytes (s.readByte s.pc.toNat) (s.readByte (s.pc.toNat + 1))

/-! ## The host's events, on a running core -/

/-- Tick: DT counts down while it is non-zero (60_exceptions.md R509). -/
def State.tick (s : State) : State := if s.dt = 0 then s else s.setTimer (s.dt - 1)

/-- KeyDown(k): accepted once the debounce window has elapsed, else dropped (60_exceptions.md R513). -/
def State.keyDown (s : State) (k : KeyCode) : State :=
  if s.cfg.window ≤ s.kcnt then { s with key := some k, kcnt := 0 } else s

/-- KeyUp(k): the latch is cleared, whatever k and kcnt are (60_exceptions.md R513). -/
def State.keyUp (s : State) (_k : KeyCode) : State := { s with key := none }

/-- The debounce step of a cycle that commits (30_encoding.md R160, 60_exceptions.md R513). -/
def State.countCycle (s : State) : State := { s with kcnt := min (s.kcnt + 1) s.cfg.window }

/-- Store the bytes of a word big-endian at pc and pc + 1, where the fetch reads them. -/
def State.placeWord (s : State) (w : Word) : State :=
  (s.writeByte s.pc.toNat (highByte w)).writeByte (s.pc.toNat + 1) (lowByte w)

end Sys2Proof.Machine
end

