-- ==== Sys2Proof/Machine/Operands.lean ====
section
/-! DEFINITION. How operands are assembled and results computed: exact arithmetic on the operands' numbers, then a
written-out reduction (00_scope.md R8; 30_encoding.md R143; 42_alu.md R270). -/

namespace Sys2Proof.Machine

/-- `zext_16(NNN)`: a 12-bit address as a 16-bit one (30_encoding.md R143). -/
def addrOf (nnn : Addr12) : Word := BitVec.ofNat 16 nnn.toNat

/-- `(a + b) mod 256` (41_skip_load_imm.md R234, 42_alu.md R265). -/
def addBytes (a b : Byte) : Byte := BitVec.ofNat 8 (a.toNat + b.toNat)

/-- `(a - b) mod 256`: the exact difference, then mod 256 (42_alu.md R266, R268). -/
def subBytes (a b : Byte) : Byte := BitVec.ofInt 8 ((a.toNat : Int) - (b.toNat : Int))

/-- `a >> 1` (42_alu.md R267). -/
def shiftRight (a : Byte) : Byte := BitVec.ofNat 8 (a.toNat / 2)

/-- `(a << 1) mod 256` (42_alu.md R269). -/
def shiftLeft (a : Byte) : Byte := BitVec.ofNat 8 (a.toNat * 2)

/-- `zext_16(V0) + zext_16(NNN)`, exact and unmasked (43_reg_skip_index_jump_rand.md R302). Log entry 30. -/
def offsetTarget (v0 : Byte) (nnn : Addr12) : Word := BitVec.ofNat 16 (v0.toNat + nnn.toNat)

/-- `(I + n) mod 65536` (10_state.md R43; 46_misc.md R384, R387, R388). Log entry 14. -/
def indexPlus (i : Word) (n : Nat) : Word := BitVec.ofNat 16 (i.toNat + n)

/-- `a * 5`, the address of a font glyph, unmasked (46_misc.md R385). -/
def glyphAddr (a : Byte) : Word := BitVec.ofNat 16 (a.toNat * 5)

/-- The hundreds digit `v / 100` (46_misc.md R386). -/
def hundreds (v : Byte) : Byte := BitVec.ofNat 8 (v.toNat / 100)

/-- The tens digit `(v / 10) mod 10` (46_misc.md R386). -/
def tens (v : Byte) : Byte := BitVec.ofNat 8 (v.toNat / 10 % 10)

/-- The ones digit `v mod 10` (46_misc.md R386). -/
def ones (v : Byte) : Byte := BitVec.ofNat 8 (v.toNat % 10)

/-- `key = some k and k = a`: the latch holds a key and it equals the register (45_key_skip.md R362; 00_scope.md R12). -/
def keyMatches (key : Option KeyCode) (a : Byte) : Bool :=
  match key with
  | none => false
  | some k => decide (k.val = a.toNat)

/-- A key code as a register's value (46_misc.md R381). -/
def keyByte (k : KeyCode) : Byte := BitVec.ofNat 8 k.val

/-- The sprite's column origin `V[X] mod 64` (44_draw.md R330). -/
def originX (a : Byte) : Nat := a.toNat % 64

/-- The sprite's row origin `V[Y] mod 32` (44_draw.md R330). -/
def originY (b : Byte) : Nat := b.toNat % 32

/-- The last step of an instruction that writes one register and no flag: `V[X] <- r; pc <- pc_next`. -/
def writeResult (x : Reg) (r : Byte) (s : State) : Result := .next (s.setReg x r).advance

/-- The last step of an ALU instruction with a flag: the result, then VF, then the pc (42_alu.md R260). -/
def writeResultFlag (x : Reg) (r f : Byte) (s : State) : Result := .next ((s.setReg x r).setReg regF f).advance

/-- `for k in 0..n-1: MemWrite(base + k, 1, V[k])`, in rising order (46_misc.md R387). -/
def State.storeBlock (s : State) (base : Nat) : Nat → State
  | 0 => s
  | n + 1 => (s.storeBlock base n).writeByte (base + n) (s.reg (regOf n))

/-- `for k in 0..n-1: V[k] <- MemRead(base + k, 1)`, in rising order (46_misc.md R388). -/
def State.loadBlock (s : State) (base : Nat) : Nat → State
  | 0 => s
  | n + 1 => (s.loadBlock base n).setReg (regOf n) (s.readByte (base + n))

end Sys2Proof.Machine
end

