-- ==== Sys2Proof/Machine/Alu.lean ====
section
/-! DEFINITION. The register ALU: category 8 (42_alu.md). Operands are read from the state before the instruction; the
flag is the last register write (R260). -/

namespace Sys2Proof.Machine

/-- 8XY0 LD: V[X] := V[Y] (R261). -/
def execLdReg (x y : Reg) (s : State) : Result := writeResult x (s.reg y) s

/-- 8XY1 OR, no flag (R262). -/
def execOrReg (x y : Reg) (s : State) : Result := writeResult x (s.reg x ||| s.reg y) s

/-- 8XY2 AND, no flag (R263). -/
def execAndReg (x y : Reg) (s : State) : Result := writeResult x (s.reg x &&& s.reg y) s

/-- 8XY3 XOR, no flag (R264). -/
def execXorReg (x y : Reg) (s : State) : Result := writeResult x (s.reg x ^^^ s.reg y) s

/-- 8XY4 ADD with carry in VF (R265). -/
def execAddReg (x y : Reg) (s : State) : Result :=
  writeResultFlag x (addBytes (s.reg x) (s.reg y)) (carryFlag (s.reg x) (s.reg y)) s

/-- 8XY5 SUB: V[X] − V[Y], VF = 1 iff V[X] > V[Y] (R266). -/
def execSubReg (x y : Reg) (s : State) : Result :=
  writeResultFlag x (subBytes (s.reg x) (s.reg y)) (noBorrowFlag (s.reg x) (s.reg y)) s

/-- 8XY6 SHR: V[X] shifted right by one; Y is encoded but not read (R267). -/
def execShr (x _y : Reg) (s : State) : Result :=
  writeResultFlag x (shiftRight (s.reg x)) (shiftedOutRight (s.reg x)) s

/-- 8XY7 SUBN: V[Y] − V[X], VF = 1 iff V[Y] > V[X] (R268). -/
def execSubn (x y : Reg) (s : State) : Result :=
  writeResultFlag x (subBytes (s.reg y) (s.reg x)) (noBorrowFlag (s.reg y) (s.reg x)) s

/-- 8XYE SHL: V[X] shifted left by one; Y is encoded but not read (R269). -/
def execShl (x _y : Reg) (s : State) : Result :=
  writeResultFlag x (shiftLeft (s.reg x)) (shiftedOutLeft (s.reg x)) s

end Sys2Proof.Machine
end

