-- ==== Sys2Proof/Machine/Draw.lean ====
section
/-! DEFINITION. Sprite drawing and collision: category D (44_draw.md). -/

namespace Sys2Proof.Machine

/-- The state after a completed draw: the new grid, VF last among the registers, the pc, then Present with the whole
grid (44_draw.md R330, R332). -/
def State.drawn (s : State) (d : Canvas) : State :=
  (({ s with fb := d.fb } : State).setReg regF (collisionFlag d.hit)).advance.emit (.present d.fb)

/-- DXYN DRW: check the N sprite addresses from I, read the rows, XOR them at (V[X] mod 64, V[Y] mod 32) with
toroidal wrap, set VF to the collision, present (R330–R332). -/
def execDrw (x y : Reg) (n : Nat) (s : State) : Result :=
  checked readable s.i.toNat n (encode (.drw x y n)) s
    (.next (s.drawn (drawSprite s.fb (originX (s.reg x)) (originY (s.reg y)) (s.readBlock s.i.toNat n))))

end Sys2Proof.Machine
end

