-- ==== Sys2Proof/Machine/IndexJump.lean ====
section
/-! DEFINITION. Register skip, index load, offset jump, random: categories 9, A, B, C
(43_reg_skip_index_jump_rand.md). -/

namespace Sys2Proof.Machine

/-- 9XY0 SNE: skip if V[X] ≠ V[Y] (R300). -/
def execSneReg (x y : Reg) (s : State) : Result := .next (s.skipIf (decide (s.reg x ≠ s.reg y)))

/-- ANNN LD I: I := NNN, unchecked (R301). -/
def execLdI (nnn : Addr12) (s : State) : Result := .next (s.setIndex (addrOf nnn)).advance

/-- BNNN JP V0: pc := V0 + NNN, unmasked; the register is always V0 (R302). -/
def execJpV0 (nnn : Addr12) (s : State) : Result := .next (s.jump (offsetTarget (s.reg 0) nnn))

/-- CXNN RND: V[X] := NN AND one random byte, which is consumed (R303). -/
def execRnd (x : Reg) (nn : Byte) (s : State) : Result := writeResult x (nn &&& s.randByte) s.consumeRand

end Sys2Proof.Machine
end

