-- ==== Sys2Proof/Machine/KeySkip.lean ====
section
/-! DEFINITION. Key skips: category E (45_key_skip.md). The latch is read, not consumed. -/

namespace Sys2Proof.Machine

/-- EX9E SKP: skip if the latched key equals V[X] (R360, R362). -/
def execSkp (x : Reg) (s : State) : Result := .next (s.skipIf (keyMatches s.key (s.reg x)))

/-- EXA1 SKNP: skip if it does not, no key held included (R361, R362). -/
def execSknp (x : Reg) (s : State) : Result := .next (s.skipIf (!keyMatches s.key (s.reg x)))

end Sys2Proof.Machine
end

