-- ==== Sys2Proof/Machine/Misc.lean ====
section
/-! DEFINITION. Timer, key wait, audio, index and memory-block instructions: category F (46_misc.md). -/

namespace Sys2Proof.Machine

/-- FX07 LD VX, DT (R380). -/
def execLdVDt (x : Reg) (s : State) : Result := writeResult x s.dt s

/-- FX0A LD VX, K: with no key latched pc stays pc0 and the instruction runs again; a latched key is loaded and kept
(R381; decision D14, log entry 13). -/
def execLdVKey (x : Reg) (s : State) : Result :=
  match s.key with
  | none => .next (s.jump s.pc)
  | some k => writeResult x (keyByte k) s

/-- FX15 LD DT, VX (R382). -/
def execLdDtV (x : Reg) (s : State) : Result := .next (s.setTimer (s.reg x)).advance

/-- FX18 BEEP VX: emit Beep(V[X]); no state but pc changes (R383). -/
def execBeep (x : Reg) (s : State) : Result := .next (s.emit (.beep (s.reg x))).advance

/-- FX1E ADD I, VX: mod 65536, no flag (R384). -/
def execAddI (x : Reg) (s : State) : Result := .next (s.setIndex (indexPlus s.i (s.reg x).toNat)).advance

/-- FX29 LD F, VX: I := V[X] · 5, unmasked (R385). -/
def execLdGlyph (x : Reg) (s : State) : Result := .next (s.setIndex (glyphAddr (s.reg x))).advance

/-- FX33 LD B, VX: the decimal digits of V[X] at I, I + 1, I + 2, all three addresses checked first (R386). -/
def execBcd (x : Reg) (s : State) : Result :=
  checked (writable s.cfg) s.i.toNat 3 (encode (.bcd x)) s
    (.next (((s.writeByte s.i.toNat (hundreds (s.reg x))).writeByte (s.i.toNat + 1) (tens (s.reg x))).writeByte
      (s.i.toNat + 2) (ones (s.reg x))).advance)

/-- FX55 LD [I], VX: store V0..V[X] from I, then I += X + 1 (R387). -/
def execStoreRegs (x : Reg) (s : State) : Result :=
  checked (writable s.cfg) s.i.toNat (x.val + 1) (encode (.storeRegs x)) s
    (.next ((s.storeBlock s.i.toNat (x.val + 1)).setIndex (indexPlus s.i (x.val + 1))).advance)

/-- FX65 LD VX, [I]: load V0..V[X] from I, then I += X + 1 (R388). -/
def execLoadRegs (x : Reg) (s : State) : Result :=
  checked readable s.i.toNat (x.val + 1) (encode (.loadRegs x)) s
    (.next ((s.loadBlock s.i.toNat (x.val + 1)).setIndex (indexPlus s.i (x.val + 1))).advance)

end Sys2Proof.Machine
end

