-- ==== Sys2Proof/Machine/SkipLoad.lean ====
section
/-! DEFINITION. Skips and immediate loads: categories 3 to 7 (41_skip_load_imm.md). -/

namespace Sys2Proof.Machine

/-- 3XNN SE: skip if V[X] = NN (R230). -/
def execSeImm (x : Reg) (nn : Byte) (s : State) : Result := .next (s.skipIf (decide (s.reg x = nn)))

/-- 4XNN SNE: skip if V[X] ≠ NN (R231). -/
def execSneImm (x : Reg) (nn : Byte) (s : State) : Result := .next (s.skipIf (decide (s.reg x ≠ nn)))

/-- 5XY0 SE: skip if V[X] = V[Y] (R232). -/
def execSeReg (x y : Reg) (s : State) : Result := .next (s.skipIf (decide (s.reg x = s.reg y)))

/-- 6XNN LD: V[X] := NN (R233). -/
def execLdImm (x : Reg) (nn : Byte) (s : State) : Result := writeResult x nn s

/-- 7XNN ADD: V[X] := (V[X] + NN) mod 256, no flag (R234). -/
def execAddImm (x : Reg) (nn : Byte) (s : State) : Result := writeResult x (addBytes (s.reg x) nn) s

end Sys2Proof.Machine
end

