-- ==== Sys2Proof/Machine/SystemFlow.lean ====
section
/-! DEFINITION. System instructions, jump and call: categories 0, 1, 2 (40_system_flow.md). -/

namespace Sys2Proof.Machine

/-- 00E0 CLS: clear the framebuffer; no Present event (R200). -/
def execCls (s : State) : Result := .next ({ s with fb := Framebuffer.clear } : State).advance

/-- 00EE RET: pop the return address into pc as it is; StackUnderflow on an empty stack (R201, R204). -/
def execRet (s : State) : Result :=
  match s.sp with
  | none => raise .stackUnderflow (some (encode .ret)) none s
  | some k => .next ((s.drop k).jump (s.stack.get k))

/-- 1NNN JP: pc := NNN (R202). -/
def execJp (nnn : Addr12) (s : State) : Result := .next (s.jump (addrOf nnn))

/-- 2NNN CALL: push the post-fetch pc, then pc := NNN; StackOverflow when all 16 entries are in use (R203, R204). -/
def execCall (nnn : Addr12) (s : State) : Result :=
  match nextSlot s.sp with
  | none => raise .stackOverflow (some (encode (.call nnn))) none s
  | some k => .next ((s.push k s.pcNext).jump (addrOf nnn))

end Sys2Proof.Machine
end

