-- ==== Sys2Proof/Machine/Cycle.lean ====
section
/-! DEFINITION. The cycle (30_encoding.md R160), the delivery of the host's events (60_exceptions.md R504, R510–R513)
and the loading of a program (70_reset_and_hazards.md R601, R602). Step.lean only calls what stands here. -/

namespace Sys2Proof.Machine

/-- The end of a cycle: a cycle that commits counts for the debounce window, a cycle that raised does not
(30_encoding.md R160, 60_exceptions.md R503). -/
def endCycle : Result → Result
  | .next t => if t.status = .running then .next t.countCycle else .next t
  | .fault f => .fault f
  | .refused r => .refused r

/-- `run_cycle()` (30_encoding.md R160): a halted core returns at once; else the pc is checked, the word fetched and
decoded, and the instruction executed, in that order (60_exceptions.md R507). -/
def runCycle (s : State) : Result :=
  if s.status = .halted then .next s
  else if s.fetchable then
    match decode s.fetchBytes with
    | .ok (i, _) => endCycle (exec i s)
    | .error _ => raise .decodeError (some s.fetchWord) none s
  else raise .addressRangeError none (some s.pc.toNat) s

/-- An event that only a running core takes in: a halted core does nothing (60_exceptions.md R504). -/
def State.whileRunning (s t : State) : State := if s.status = .running then t else s

/-- Deliver one host event; each is atomic (60_exceptions.md R509, R510, R513). -/
def deliver (e : HostEvent) (s : State) : Result :=
  match e with
  | .cycle => runCycle s
  | .tick => .next (s.whileRunning s.tick)
  | .keyDown k => .next (s.whileRunning (s.keyDown k))
  | .keyUp k => .next (s.whileRunning (s.keyUp k))

/-- The next host event: the oldest of the schedule, or the next free value when the schedule is empty, so that every
interleaving is admitted (60_exceptions.md R510). DESIGN CHOICE, log entry 2. -/
def State.nextEvent (s : State) : HostEvent :=
  match s.schedule with
  | [] => Config.freeEvent s.arrivals
  | e :: _ => e

/-- The state with its next host event used up: taken off the schedule, or counted as a free one. -/
def State.eventTaken (s : State) : State :=
  { s with
    schedule := s.schedule.tail
    arrivals := if s.schedule = [] then s.arrivals + 1 else s.arrivals }

/-- One step of the machine: the host's next event. -/
def stepEvent (s : State) : Result := deliver s.nextEvent s.eventTaken

/-- Reset with a program image, or none where the image is longer than 3584 bytes and no core is built
(70_reset_and_hazards.md R600–R602). The image goes over the fill and the font, so none of its bytes is overwritten. The
host's first events and first random bytes are arguments too, and the free values go on after them (log entries 2, 3). -/
def State.boot (c : Config) (r : ResetValues) (image : List Byte) (events : List HostEvent) (rand : List Byte) :
    Option State :=
  if image.length ≤ maxImage then
    some { State.resetWith c r with
      mem := Memory.place c [] progBase image
      schedule := events
      randIn := rand }
  else none

/-- The schedule with a Cycle first, as it is if one is first already. -/
def cycleFirst : List HostEvent → List HostEvent
  | .cycle :: es => .cycle :: es
  | es => .cycle :: es

/-- The state about to fetch: the core running, the pc one that may be fetched from, and a Cycle the next host event of
the schedule. Log entry 24. -/
def State.aboutToFetch (s : State) : State :=
  { s with
    status := .running
    fault := none
    pc := if s.fetchable then s.pc else 0x200
    schedule := cycleFirst s.schedule }

/-- The state with a table word placed where the next cycle fetches it: bits above `nbits` are 0. -/
def State.withTableWord (s : State) (nbits w : Nat) : State :=
  s.aboutToFetch.placeWord (BitVec.ofNat 16 (w % 2 ^ nbits))

end Sys2Proof.Machine
end

