-- ==== Sys2Proof/Machine/Step.lean ====
section
/-! DEFINITION. One step of the machine, and the host's way to have it fetch a given word. -/

namespace Sys2Proof.Machine

/-- One step: the host's next event is delivered (60_exceptions.md R510). -/
def step (s : State) : Host.Outcome State Fault Refusal := stepEvent s

/-- The state with an instruction stored where the next step fetches it, big-endian (20_memory.md R105). -/
def State.withFetchWord (s : State) (nbits w : Nat) : State := s.withTableWord nbits w

end Sys2Proof.Machine
end

