-- ==== Sys2Proof/Safety.lean ====
section
/-! DEFINITION. What counts as a safe run, the invariant of the machine, and the terms in which statements say what an
instruction leaves alone. -/

namespace Sys2Proof.Machine

/-! ## Safe runs -/

/-- A safe state: no fatal error has halted the core (60_exceptions.md R503, R520). -/
def State.safe (s : State) : Prop := s.status = .running

/-- The end of a run (60_exceptions.md R520, decision D22): the core is running and its next instruction is a jump to
itself. Log entry 28. -/
def State.completed (s : State) : Prop :=
  s.status = .running ∧ s.fetchable = true ∧ ∃ nnn, decode s.fetchBytes = .ok (.jp nnn, []) ∧ addrOf nnn = s.pc

/-! ## The invariant -/

/-- The memory is in canonical form. -/
def State.memCanonical (s : State) : Prop := s.mem.wf s.cfg = true

/-- The debounce counter is 0..W (10_state.md R50). -/
def State.latchBounded (s : State) : Prop := s.kcnt ≤ s.cfg.window

/-- The core is halted exactly when a fault record stands (10_state.md R52, 60_exceptions.md R503). -/
def State.haltRecorded (s : State) : Prop := s.status = .halted ↔ s.fault.isSome = true

/-- The largest value a pc can hold is 0x10FE, from BNNN (10_state.md R45). -/
def State.pcBounded (s : State) : Prop := s.pc.toNat ≤ 0x10FE

/-- The largest return address is 0x1000, pushed by a call at 0xFFE (40_system_flow.md R203). -/
def State.stackBounded (s : State) : Prop := ∀ k : Fin 16, (s.stack.get k).toNat ≤ 0x1000

/-- What every step keeps. -/
def State.inv (s : State) : Prop :=
  s.memCanonical ∧ s.latchBounded ∧ s.haltRecorded ∧ s.pcBounded ∧ s.stackBounded

/-! ## Frames -/

/-- The parts of the state a frame speaks of, after the rows of 10_state.md R69 and the model's own ports. -/
inductive Part where
  | regs      -- V0–VF
  | index     -- I
  | counter   -- pc
  | stack     -- SP and stack[0]–stack[15]
  | timer     -- DT
  | latch     -- key and kcnt
  | screen    -- the framebuffer
  | memory    -- every byte, as it reads
  | run       -- the status and the fault record
  | output    -- the events emitted
  | random    -- the random source's port
  | events    -- the host's schedule and the count of its free events
  | config    -- the parameters
  deriving DecidableEq, Repr

/-- The part is the same in both states; memory byte by byte, as it reads. -/
def Part.same (s t : State) : Part → Prop
  | .regs => ∀ r, t.reg r = s.reg r
  | .index => t.i = s.i
  | .counter => t.pc = s.pc
  | .stack => t.sp = s.sp ∧ ∀ k, t.stack.get k = s.stack.get k
  | .timer => t.dt = s.dt
  | .latch => t.key = s.key ∧ t.kcnt = s.kcnt
  | .screen => ∀ y x, t.fb.pixel y x = s.fb.pixel y x
  | .memory => ∀ a, t.readByte a = s.readByte a
  | .run => t.status = s.status ∧ t.fault = s.fault
  | .output => t.out = s.out
  | .random => t.randIn = s.randIn ∧ t.draws = s.draws
  | .events => t.schedule = s.schedule ∧ t.arrivals = s.arrivals
  | .config => t.cfg = s.cfg

/-- From `s` to `t` nothing changes but the parts listed. -/
def onlyChanged (parts : List Part) (s t : State) : Prop := ∀ p : Part, p ∉ parts → p.same s t

/-- Every register but those of a list is the same in both states. -/
def regsKeptBut (rs : List Reg) (s t : State) : Prop := ∀ r, r ∉ rs → t.reg r = s.reg r

/-- From `s` to `t` exactly one host event is used up: the oldest of the schedule, or one free event when the schedule is
empty (60_exceptions.md R510, log entry 2). -/
def eventUsed (s t : State) : Prop :=
  t.schedule = s.schedule.tail ∧ t.arrivals = if s.schedule = [] then s.arrivals + 1 else s.arrivals

/-- The core has taken a fatal error in `s` and is now `t` (60_exceptions.md R502, R503): halted, the record with the
kind, pc0, the word and the address, one Fault event, and nothing else changed. -/
def haltedWith (kind : ErrorKind) (op : Option Word) (addr : Option Nat) (s t : State) : Prop :=
  t.status = .halted ∧ t.fault = some { kind := kind, pc := s.pc, op := op, addr := addr } ∧
    t.out = s.out ++ [.fault { kind := kind, pc := s.pc, op := op, addr := addr }] ∧ onlyChanged [.run, .output] s t

/-! ## The terms of the rules as numbers -/

/-- SP as the spec numbers it: −1 when the stack is empty, else the index of the newest entry (10_state.md R48). -/
def State.spInt (s : State) : Int :=
  match s.sp with
  | none => -1
  | some k => k.val

/-- A data read at `a` is in bounds (20_memory.md R108). -/
def loadable (a : Nat) : Prop := a ≤ 0xFFF

/-- A data write at `a` is in bounds (20_memory.md R109). -/
def storable (s : State) (a : Nat) : Prop := a ≤ 0xFFF ∧ (s.cfg.lowWriteProtect = true → 0x200 ≤ a)

/-- Of base, base + 1, …, base + n − 1 the lowest address out of bounds is base + k (60_exceptions.md R507). -/
def lowestBad (good : Nat → Prop) (base n k : Nat) : Prop := k < n ∧ ¬ good (base + k) ∧ ∀ j < k, good (base + j)

/-- The latch holds a key and its code is the register's value (45_key_skip.md R362). -/
def State.keyIs (s : State) (x : Reg) : Prop := ∃ k, s.key = some k ∧ k.val = (s.reg x).toNat

/-- The pixel in row `q`, column `p` lies under a 1 bit of the N-row sprite at I, drawn at (V[X], V[Y])
(44_draw.md R331): bit 7 − c of row byte r falls on row (V[Y] mod 32 + r) mod 32, column (V[X] mod 64 + c) mod 64. -/
def spriteCovers (s : State) (x y : Reg) (n : Nat) (q : Fin 32) (p : Fin 64) : Prop :=
  ∃ r < n, q.val = ((s.reg y).toNat % 32 + r) % 32 ∧
    ∃ c < (8 : Nat), p.val = ((s.reg x).toNat % 64 + c) % 64 ∧
      (s.readByte (s.i.toNat + r)).getLsbD (7 - c) = true

/-! ## Who writes what -/

/-- The instruction writes register `r`: as an ordinary destination, or as the flag register in the six instructions
that set a flag (10_state.md R40, R42). -/
def writesReg (r : Reg) : Instr → Bool
  | .ldImm x _ | .addImm x _ | .ldReg x _ | .orReg x _ | .andReg x _ | .xorReg x _ | .rnd x _ => decide (r = x)
  | .ldVDt x | .ldVKey x => decide (r = x)
  | .loadRegs x => decide (r.val ≤ x.val)
  | .addReg x _ | .subReg x _ | .shr x _ | .subn x _ | .shl x _ => decide (r = x) || decide (r = regF)
  | .drw _ _ _ => decide (r = regF)
  | .cls | .ret | .jp _ | .call _ | .seImm _ _ | .sneImm _ _ | .seReg _ _ | .sneReg _ _ | .ldI _
  | .jpV0 _ | .skp _ | .sknp _ | .ldDtV _ | .beep _ | .addI _ | .ldGlyph _ | .bcd _ | .storeRegs _ => false

/-- The parts of the state an instruction that commits may change besides V and pc (10_state.md R69, the column
"written by", with the output and random ports of 60_exceptions.md R512). -/
def writesParts : Instr → List Part
  | .ret | .call _ => [.stack]
  | .ldI _ | .addI _ | .ldGlyph _ | .loadRegs _ => [.index]
  | .storeRegs _ => [.index, .memory]
  | .bcd _ => [.memory]
  | .ldDtV _ => [.timer]
  | .cls => [.screen]
  | .drw _ _ _ => [.screen, .output]
  | .beep _ => [.output]
  | .rnd _ _ => [.random]
  | .jp _ | .seImm _ _ | .sneImm _ _ | .seReg _ _ | .ldImm _ _ | .addImm _ _ | .ldReg _ _ | .orReg _ _
  | .andReg _ _ | .xorReg _ _ | .addReg _ _ | .subReg _ _ | .shr _ _ | .subn _ _ | .shl _ _
  | .sneReg _ _ | .jpV0 _ | .skp _ | .sknp _ | .ldVDt _ | .ldVKey _ => []

/-- The instruction can raise a fatal error of its own (60_exceptions.md R501). -/
def mayRaise : Instr → Bool
  | .call _ | .ret | .drw _ _ _ | .bcd _ | .storeRegs _ | .loadRegs _ => true
  | .cls | .jp _ | .seImm _ _ | .sneImm _ _ | .seReg _ _ | .ldImm _ _ | .addImm _ _ | .ldReg _ _
  | .orReg _ _ | .andReg _ _ | .xorReg _ _ | .addReg _ _ | .subReg _ _ | .shr _ _ | .subn _ _ | .shl _ _
  | .sneReg _ _ | .ldI _ | .jpV0 _ | .rnd _ _ | .skp _ | .sknp _ | .ldVDt _ | .ldVKey _ | .ldDtV _
  | .beep _ | .addI _ | .ldGlyph _ => false

end Sys2Proof.Machine
end

