-- ==== Sys2Proof/Certificates/Slice0/Obligations.lean ====
section
/-! DEFINITION. The statements for the provers. Each docstring names the rule of spec/ it formalises; where a clause
rests on a decision of spec/92_eei_decisions.md or on a log entry, the docstring says so. -/

open Sys2Proof Sys2Proof.Machine

/-! ## Encoding -/

/-- Words written out from the encodings of opcode_table.json decode to their instructions, at least one of each format
and of each category 0–F (30_encoding.md R142, R144). -/
def Obligations.TableWordsDecode : Prop :=
  decodeWord 0x00EE = .ok .ret ∧ decodeWord 0x1234 = .ok (.jp 0x234) ∧ decodeWord 0x2ABC = .ok (.call 0xABC) ∧
  decodeWord 0x3A7F = .ok (.seImm 10 0x7F) ∧ decodeWord 0x4B80 = .ok (.sneImm 11 0x80) ∧
  decodeWord 0x5AB0 = .ok (.seReg 10 11) ∧ decodeWord 0x6C01 = .ok (.ldImm 12 0x01) ∧
  decodeWord 0x7DFE = .ok (.addImm 13 0xFE) ∧ decodeWord 0x8127 = .ok (.subn 1 2) ∧
  decodeWord 0x9EF0 = .ok (.sneReg 14 15) ∧ decodeWord 0xA2F0 = .ok (.ldI 0x2F0) ∧
  decodeWord 0xB210 = .ok (.jpV0 0x210) ∧ decodeWord 0xC30F = .ok (.rnd 3 0x0F) ∧
  decodeWord 0xD12F = .ok (.drw 1 2 15) ∧ decodeWord 0xE3A1 = .ok (.sknp 3) ∧ decodeWord 0xFC55 = .ok (.storeRegs 12)

/-- Decoding the two bytes of any well-formed instruction gives it back, every operand at every value its field admits,
and leaves the bytes after them (30_encoding.md R140–R144). -/
def Obligations.DecodeInvertsEncode : Prop :=
  ∀ (i : Instr) (rest : List Byte), i.wellFormed = true → decode (encodeBytes i ++ rest) = .ok (i, rest)

/-- The other direction: a word that decodes is exactly the word of its instruction, so no two words share one
instruction and no bit of a word is dropped (30_encoding.md R141–R144, R146). -/
def Obligations.EncodeInvertsDecode : Prop :=
  ∀ (w : Word) (i : Instr), decodeWord w = .ok i → i.wellFormed = true ∧ encode i = w

/-- A word decodes exactly when it lies in a row of the opcode table (30_encoding.md R144: a word that matches no row is
illegal). -/
def Obligations.DecodeAgreesWithTable : Prop :=
  ∀ w : Word, (∃ i, decodeWord w = .ok i) ↔ ∃ r ∈ opcodeTable, r.covers w = true

/-- No word lies in two rows of the opcode table (30_encoding.md R146: the rows' patterns do not overlap). -/
def Obligations.TableRowsDoNotOverlap : Prop :=
  ∀ (w : Word) (r q : Row), r ∈ opcodeTable → q ∈ opcodeTable → r.covers w = true → q.covers w = true → r = q

/-- The illegal words are exactly those of the six bullets of 30_encoding.md R145 (decisions D12, D13 for the last
nibble of 5XYn and 9XYn and for 0NNN; log entry 17). -/
def Obligations.IllegalWordsAreThoseListed : Prop :=
  ∀ w : Word, (∃ e, decodeWord w = .error e) ↔
    (w.toNat / 4096 = 0x0 ∧ w.toNat ≠ 0x00E0 ∧ w.toNat ≠ 0x00EE) ∨
    (w.toNat / 4096 = 0x5 ∧ w.toNat % 16 ≠ 0) ∨
    (w.toNat / 4096 = 0x8 ∧ w.toNat % 16 ∈ [0x8, 0x9, 0xA, 0xB, 0xC, 0xD, 0xF]) ∨
    (w.toNat / 4096 = 0x9 ∧ w.toNat % 16 ≠ 0) ∨
    (w.toNat / 4096 = 0xE ∧ w.toNat % 256 ∉ [0x9E, 0xA1]) ∨
    (w.toNat / 4096 = 0xF ∧ w.toNat % 256 ∉ [0x07, 0x0A, 0x15, 0x18, 0x1E, 0x29, 0x33, 0x55, 0x65])

/-! ## Reset and load -/

/-- What reset leaves under the spec's defaults (10_state.md R60–R68): V, I and DT zero, pc at 0x200, the stack empty and
zero, the framebuffer clear, no key, the debounce window elapsed whatever W is, running with no record, the font at
0x000–0x04F and the fill 0x00 at every other address, low memory protected, and the ports empty: no event or random byte
supplied, none of the free ones used, nothing emitted. The values of V, I, DT, the stack entries, the pc, the latch, the
status, the fill and the protection are the spec's decisions D1–D5, D9, D11, D15 (log entries 5, 6, 8–10, 16, 27), and the
empty ports are the model's (log entry 29). -/
def Obligations.ResetLeaves : Prop :=
  (∀ r, State.reset.reg r = 0) ∧ State.reset.i = 0 ∧ State.reset.dt = 0 ∧ State.reset.pc = 0x200 ∧
  State.reset.spInt = -1 ∧ (∀ k, State.reset.stack.get k = 0) ∧ (∀ y x, State.reset.fb.pixel y x = false) ∧
  State.reset.key = none ∧ State.reset.kcnt = State.reset.cfg.window ∧ State.reset.status = .running ∧
  State.reset.fault = none ∧ (∀ (a : Nat) (h : a < 80), State.reset.readByte a = State.reset.cfg.font[a]) ∧
  (∀ a, 80 ≤ a → State.reset.readByte a = 0) ∧ State.reset.cfg.lowWriteProtect = true ∧
  State.reset.schedule = [] ∧ State.reset.arrivals = 0 ∧ State.reset.randIn = [] ∧ State.reset.draws = 0 ∧
  State.reset.out = []

/-- A framebuffer of a machine just reset, under any parameters, has every pixel 0 (10_state.md R65). -/
def Obligations.ResetScreenIsClear : Prop :=
  ∀ (c : Config) (v : ResetValues) (y : Fin 32) (x : Fin 64), (State.resetWith c v).fb.pixel y x = false

/-- Reset and load under any parameters, reset values and image (10_state.md R60–R68; 20_memory.md R104;
70_reset_and_hazards.md R601, R602, decision D20, log entry 20). An image of more than 3584 bytes builds no machine. Any
other is placed verbatim from 0x200, the font stands at 0x000–0x04F and every other byte is the fill. The registers are
RESET_V, RESET_I and RESET_DT, the pc is 0x200, the stack is empty with entries 0, the framebuffer is clear, no key is
latched and the window has elapsed, the core is running with no record, and the parameters are those given (decisions D1–D5,
D11, D15; log entries 5–10, 16, 27). The host's first events and random bytes are those given, none of the free ones is
used, and nothing is emitted (log entries 2, 3, 29). -/
def Obligations.BootPlacesTheImage : Prop :=
  ∀ (c : Config) (v : ResetValues) (image : List Byte) (events : List HostEvent) (rand : List Byte),
    (3584 < image.length → State.boot c v image events rand = none) ∧
    (image.length ≤ 3584 → ∃ s, State.boot c v image events rand = some s ∧
      (∀ (k : Nat) (b : Byte), image[k]? = some b → s.readByte (0x200 + k) = b) ∧
      (∀ (a : Nat) (h : a < 80), s.readByte a = c.font[a]) ∧
      (∀ a, 80 ≤ a → (a < 0x200 ∨ 0x200 + image.length ≤ a) → s.readByte a = c.memFill) ∧
      (∀ r, s.reg r = v.v.get r) ∧ s.i = v.i ∧ s.dt = v.dt ∧ s.pc = 0x200 ∧
      s.spInt = -1 ∧ (∀ k, s.stack.get k = 0) ∧ (∀ y x, s.fb.pixel y x = false) ∧
      s.key = none ∧ s.kcnt = c.window ∧ s.status = .running ∧ s.fault = none ∧ s.cfg = c ∧
      s.schedule = events ∧ s.arrivals = 0 ∧ s.randIn = rand ∧ s.draws = 0 ∧ s.out = [])

/-! ## The cycle and the host's events -/

/-- Every instruction and every step answers a next state in every state: the machine's errors are next states too
(log entry 1). A step uses up exactly one host event, the oldest of the schedule, whichever it is, or one free event when
the schedule is empty, so events happen one at a time and in any order the host gives (60_exceptions.md R510, decision D16,
log entry 2). -/
def Obligations.EveryStepAnswersNext : Prop :=
  (∀ (i : Instr) (s : State), ∃ t, exec i s = .next t) ∧
  (∀ s : State, ∃ t, step s = .next t ∧ eventUsed s t) ∧
  (∀ (s : State) (e : HostEvent) (rest : List HostEvent), s.schedule = e :: rest → s.nextEvent = e) ∧
  (∀ s : State, s.schedule = [] → s.nextEvent = Config.freeEvent s.arrivals)

/-- A Cycle event on a running core whose pc may be fetched from runs the decoded instruction, and counts for the
debounce window exactly when the instruction commits (30_encoding.md R160; the count is decision D15, log entry 16). The
Cycle is used up before the instruction runs (log entry 2). -/
def Obligations.StepRunsTheDecodedInstruction : Prop :=
  ∀ (s t : State) (i : Instr) (rest : List Byte),
    s.status = .running → s.nextEvent = .cycle → 0x200 ≤ s.pc.toNat → s.pc.toNat ≤ 0xFFE →
    decode [s.readByte s.pc.toNat, s.readByte (s.pc.toNat + 1)] = .ok (i, rest) →
    exec i s.eventTaken = .next t →
    eventUsed s s.eventTaken ∧ onlyChanged [.events] s s.eventTaken ∧
      step s = .next (if t.status = .running then { t with kcnt := min (t.kcnt + 1) t.cfg.window } else t)

/-- An instruction stored where the machine fetches is the one decoded there, whatever was there before: fetch is
coherent with memory and big-endian (20_memory.md R105, R116). Memory is assumed in its canonical form, which every
step keeps. -/
def Obligations.StoredInstructionIsFetched : Prop :=
  ∀ (s : State) (i : Instr), s.memCanonical → i.wellFormed = true →
    decode (s.withFetchWord 16 (encode i).toNat).fetchBytes = .ok (i, [])

/-- A Cycle with the pc outside 0x200–0xFFE fetches nothing and halts with AddressRangeError at pc0
(20_memory.md R106, decision D7, log entry 11). -/
def Obligations.FetchOutsideRangeHalts : Prop :=
  ∀ s : State, s.status = .running → s.nextEvent = .cycle → (s.pc.toNat < 0x200 ∨ 0xFFE < s.pc.toNat) →
    ∃ t, step s = .next t ∧ eventUsed s t ∧ haltedWith .addressRangeError none (some s.pc.toNat) s.eventTaken t

/-- A Cycle that fetches an illegal word halts with DecodeError, the word in the record (30_encoding.md R145;
60_exceptions.md R500–R503, decisions D11, D24, log entries 25 and 27). -/
def Obligations.IllegalWordHalts : Prop :=
  ∀ (s : State) (e : DecodeReject), s.status = .running → s.nextEvent = .cycle →
    0x200 ≤ s.pc.toNat → s.pc.toNat ≤ 0xFFE → decodeWord s.fetchWord = .error e →
    ∃ t, step s = .next t ∧ eventUsed s t ∧ haltedWith .decodeError (some s.fetchWord) none s.eventTaken t

/-- A halted core does nothing, whatever the host sends and however often (60_exceptions.md R504, decision D11, log
entry 27): after any number of steps only the host's own events have been used up. -/
def Obligations.HaltedCoreIsFrozen : Prop :=
  ∀ (n : Nat) (s : State), s.status = .halted → ∃ t, Host.Core.run core n s = .next t ∧ onlyChanged [.events] s t

/-- A Tick on a running core, scheduled or free, counts DT down by one while it is non-zero, and changes nothing else
(60_exceptions.md R509). -/
def Obligations.TickCountsDown : Prop :=
  ∀ s : State, s.status = .running → s.nextEvent = .tick →
    ∃ t, step s = .next t ∧ t.dt.toNat = (if s.dt.toNat = 0 then 0 else s.dt.toNat - 1) ∧ eventUsed s t ∧
      onlyChanged [.timer, .events] s t

/-- A KeyDown is latched and restarts the window once W cycles have passed, and is dropped before that; a KeyUp of any
key clears the latch and leaves the counter (60_exceptions.md R513, decision D15, log entry 16). -/
def Obligations.KeyEventsUpdateTheLatch : Prop :=
  ∀ (s : State) (k : KeyCode), s.status = .running →
    (s.nextEvent = .keyDown k → ∃ t, step s = .next t ∧ eventUsed s t ∧
      (s.cfg.window ≤ s.kcnt → t.key = some k ∧ t.kcnt = 0) ∧
      (s.kcnt < s.cfg.window → t.key = s.key ∧ t.kcnt = s.kcnt) ∧ onlyChanged [.latch, .events] s t) ∧
    (s.nextEvent = .keyUp k → ∃ t, step s = .next t ∧ eventUsed s t ∧
      t.key = none ∧ t.kcnt = s.kcnt ∧ onlyChanged [.latch, .events] s t)

/-! ## System instructions, jump and call -/

/-- 00E0 clears every pixel, advances the pc, and does nothing else; no Present is emitted (40_system_flow.md R200). -/
def Obligations.ClsClearsTheScreen : Prop :=
  ∀ s : State, ∃ t, exec .cls s = .next t ∧ (∀ y x, t.fb.pixel y x = false) ∧ t.pc = s.pc + 2 ∧
    onlyChanged [.screen, .counter] s t

/-- 00EE takes the newest entry into pc as it is and lowers SP, the entries keeping their values; on an empty stack it
halts with StackUnderflow (40_system_flow.md R201). -/
def Obligations.RetPopsTheReturnAddress : Prop :=
  ∀ s : State,
    (s.spInt = -1 → ∃ t, exec .ret s = .next t ∧ haltedWith .stackUnderflow (some 0x00EE) none s t) ∧
    (∀ k : Fin 16, s.spInt = k.val → ∃ t, exec .ret s = .next t ∧ t.pc = s.stack.get k ∧ t.spInt = s.spInt - 1 ∧
      (∀ j, t.stack.get j = s.stack.get j) ∧ onlyChanged [.counter, .stack] s t)

/-- 1NNN sets pc to NNN and does nothing else (40_system_flow.md R202). -/
def Obligations.JpSetsThePc : Prop :=
  ∀ (s : State) (nnn : Addr12), ∃ t, exec (.jp nnn) s = .next t ∧ t.pc.toNat = nnn.toNat ∧ onlyChanged [.counter] s t

/-- 2NNN raises SP, stores the post-fetch pc there and sets pc to NNN, every other entry unchanged; with all 16 entries
in use it halts with StackOverflow (40_system_flow.md R203). -/
def Obligations.CallPushesThePostFetchPc : Prop :=
  ∀ (s : State) (nnn : Addr12),
    (s.spInt = 15 → ∃ t, exec (.call nnn) s = .next t ∧
      haltedWith .stackOverflow (some (BitVec.ofNat 16 (0x2000 + nnn.toNat))) none s t) ∧
    (s.spInt < 15 → ∃ t, exec (.call nnn) s = .next t ∧ t.pc.toNat = nnn.toNat ∧ t.spInt = s.spInt + 1 ∧
      (∀ k : Fin 16, t.stack.get k = if (k.val : Int) = s.spInt + 1 then s.pc + 2 else s.stack.get k) ∧
      onlyChanged [.counter, .stack] s t)

/-- A call and the return right after it are inverse on pc and SP: the call increments SP and stores the post-fetch pc,
the return loads it, with no + 2, and decrements SP (40_system_flow.md R204). -/
def Obligations.CallThenRetComesBack : Prop :=
  ∀ (s : State) (nnn : Addr12), s.spInt < 15 →
    ∃ t u, exec (.call nnn) s = .next t ∧ exec .ret t = .next u ∧ t.spInt = s.spInt + 1 ∧
      (∀ k : Fin 16, (k.val : Int) = t.spInt → t.stack.get k = s.pc + 2) ∧ u.pc = s.pc + 2 ∧ u.spInt = s.spInt ∧
      onlyChanged [.counter, .stack] s u

/-! ## Skips and loads -/

/-- 3XNN skips exactly when V[X] equals NN, 4XNN exactly when it differs; a skip is pc0 + 4, else pc0 + 2, and nothing
else changes (41_skip_load_imm.md R230, R231). -/
def Obligations.SkipsOnAnImmediate : Prop :=
  ∀ (s : State) (x : Reg) (nn : Byte),
    (∃ t, exec (.seImm x nn) s = .next t ∧
      t.pc = (if (s.reg x).toNat = nn.toNat then s.pc + 4 else s.pc + 2) ∧ onlyChanged [.counter] s t) ∧
    (∃ t, exec (.sneImm x nn) s = .next t ∧
      t.pc = (if (s.reg x).toNat = nn.toNat then s.pc + 2 else s.pc + 4) ∧ onlyChanged [.counter] s t)

/-- 5XY0 skips exactly when V[X] equals V[Y], 9XY0 exactly when they differ (41_skip_load_imm.md R232,
43_reg_skip_index_jump_rand.md R300). -/
def Obligations.SkipsOnRegisters : Prop :=
  ∀ (s : State) (x y : Reg),
    (∃ t, exec (.seReg x y) s = .next t ∧
      t.pc = (if (s.reg x).toNat = (s.reg y).toNat then s.pc + 4 else s.pc + 2) ∧ onlyChanged [.counter] s t) ∧
    (∃ t, exec (.sneReg x y) s = .next t ∧
      t.pc = (if (s.reg x).toNat = (s.reg y).toNat then s.pc + 2 else s.pc + 4) ∧ onlyChanged [.counter] s t)

/-- EX9E skips exactly when the latch holds a key and it equals V[X]; EXA1 exactly when not; the latch is kept
(45_key_skip.md R360, R361). -/
def Obligations.SkipsOnTheKey : Prop :=
  ∀ (s : State) (x : Reg),
    (∃ t, exec (.skp x) s = .next t ∧ (s.keyIs x → t.pc = s.pc + 4) ∧ (¬ s.keyIs x → t.pc = s.pc + 2) ∧
      onlyChanged [.counter] s t) ∧
    (∃ t, exec (.sknp x) s = .next t ∧ (¬ s.keyIs x → t.pc = s.pc + 4) ∧ (s.keyIs x → t.pc = s.pc + 2) ∧
      onlyChanged [.counter] s t)

/-- 6XNN loads NN into V[X], VF included when X = F, and nothing else (41_skip_load_imm.md R233). -/
def Obligations.LoadsAnImmediate : Prop :=
  ∀ (s : State) (x : Reg) (nn : Byte), ∃ t, exec (.ldImm x nn) s = .next t ∧ t.reg x = nn ∧ t.pc = s.pc + 2 ∧
    regsKeptBut [x] s t ∧ onlyChanged [.regs, .counter] s t

/-- 7XNN adds NN to V[X] mod 256 and sets no flag: every register but V[X] is unchanged, VF with X ≠ F among them
(41_skip_load_imm.md R234). -/
def Obligations.AddsAnImmediateWithoutFlag : Prop :=
  ∀ (s : State) (x : Reg) (nn : Byte), ∃ t, exec (.addImm x nn) s = .next t ∧
    (t.reg x).toNat = ((s.reg x).toNat + nn.toNat) % 256 ∧ t.pc = s.pc + 2 ∧
    regsKeptBut [x] s t ∧ onlyChanged [.regs, .counter] s t

/-! ## The register ALU -/

/-- 8XY0–8XY3: copy, OR, AND and XOR bit by bit, no flag: VF unchanged unless X = F (42_alu.md R261–R264). -/
def Obligations.CopiesAndLogic : Prop :=
  ∀ (s : State) (x y : Reg),
    (∃ t, exec (.ldReg x y) s = .next t ∧ t.reg x = s.reg y ∧ t.pc = s.pc + 2 ∧
      regsKeptBut [x] s t ∧ onlyChanged [.regs, .counter] s t) ∧
    (∃ t, exec (.orReg x y) s = .next t ∧ (∀ b, (t.reg x).getLsbD b = ((s.reg x).getLsbD b || (s.reg y).getLsbD b)) ∧
      t.pc = s.pc + 2 ∧ regsKeptBut [x] s t ∧ onlyChanged [.regs, .counter] s t) ∧
    (∃ t, exec (.andReg x y) s = .next t ∧ (∀ b, (t.reg x).getLsbD b = ((s.reg x).getLsbD b && (s.reg y).getLsbD b)) ∧
      t.pc = s.pc + 2 ∧ regsKeptBut [x] s t ∧ onlyChanged [.regs, .counter] s t) ∧
    (∃ t, exec (.xorReg x y) s = .next t ∧
      (∀ b, (t.reg x).getLsbD b = ((s.reg x).getLsbD b ^^ (s.reg y).getLsbD b)) ∧
      t.pc = s.pc + 2 ∧ regsKeptBut [x] s t ∧ onlyChanged [.regs, .counter] s t)

/-- 8XY4: the sum mod 256, and VF the carry, which is what VF holds when X = F too (42_alu.md R265). -/
def Obligations.AddsWithCarry : Prop :=
  ∀ (s : State) (x y : Reg), ∃ t, exec (.addReg x y) s = .next t ∧
    (x ≠ regF → (t.reg x).toNat = ((s.reg x).toNat + (s.reg y).toNat) % 256) ∧
    (t.reg regF).toNat = (if (s.reg x).toNat + (s.reg y).toNat > 255 then 1 else 0) ∧ t.pc = s.pc + 2 ∧
    regsKeptBut [x, regF] s t ∧ onlyChanged [.regs, .counter] s t

/-- 8XY5: the exact difference V[X] − V[Y] mod 256, and VF = 1 exactly when V[X] > V[Y] (42_alu.md R266). -/
def Obligations.SubtractsWithNoBorrowFlag : Prop :=
  ∀ (s : State) (x y : Reg), ∃ t, exec (.subReg x y) s = .next t ∧
    (x ≠ regF → ((t.reg x).toNat : Int) = (((s.reg x).toNat : Int) - ((s.reg y).toNat : Int)) % 256) ∧
    (t.reg regF).toNat = (if (s.reg x).toNat > (s.reg y).toNat then 1 else 0) ∧ t.pc = s.pc + 2 ∧
    regsKeptBut [x, regF] s t ∧ onlyChanged [.regs, .counter] s t

/-- 8XY7: the exact difference V[Y] − V[X] mod 256, and VF = 1 exactly when V[Y] > V[X] (42_alu.md R268). -/
def Obligations.SubtractsInReverse : Prop :=
  ∀ (s : State) (x y : Reg), ∃ t, exec (.subn x y) s = .next t ∧
    (x ≠ regF → ((t.reg x).toNat : Int) = (((s.reg y).toNat : Int) - ((s.reg x).toNat : Int)) % 256) ∧
    (t.reg regF).toNat = (if (s.reg y).toNat > (s.reg x).toNat then 1 else 0) ∧ t.pc = s.pc + 2 ∧
    regsKeptBut [x, regF] s t ∧ onlyChanged [.regs, .counter] s t

/-- 8XY6 and 8XYE: V[X] shifted by one, VF the bit shifted out, and Y has no effect (42_alu.md R267, R269). -/
def Obligations.ShiftsByOne : Prop :=
  ∀ (s : State) (x y : Reg),
    (∃ t, exec (.shr x y) s = .next t ∧ (x ≠ regF → (t.reg x).toNat = (s.reg x).toNat / 2) ∧
      (t.reg regF).toNat = (s.reg x).toNat % 2 ∧ t.pc = s.pc + 2 ∧
      regsKeptBut [x, regF] s t ∧ onlyChanged [.regs, .counter] s t) ∧
    (∃ t, exec (.shl x y) s = .next t ∧ (x ≠ regF → (t.reg x).toNat = (s.reg x).toNat * 2 % 256) ∧
      (t.reg regF).toNat = (s.reg x).toNat / 128 ∧ t.pc = s.pc + 2 ∧
      regsKeptBut [x, regF] s t ∧ onlyChanged [.regs, .counter] s t) ∧
    (∀ z, exec (.shr x y) s = exec (.shr x z) s ∧ exec (.shl x y) s = exec (.shl x z) s)

/-! ## Index, offset jump, random -/

/-- ANNN loads NNN into I, unchecked, and nothing else (43_reg_skip_index_jump_rand.md R301). -/
def Obligations.LoadsTheIndex : Prop :=
  ∀ (s : State) (nnn : Addr12), ∃ t, exec (.ldI nnn) s = .next t ∧ t.i.toNat = nnn.toNat ∧ t.pc = s.pc + 2 ∧
    onlyChanged [.index, .counter] s t

/-- BNNN sets pc to the exact, unmasked sum V0 + NNN and nothing else (43_reg_skip_index_jump_rand.md R302). -/
def Obligations.JumpsWithOffset : Prop :=
  ∀ (s : State) (nnn : Addr12), ∃ t, exec (.jpV0 nnn) s = .next t ∧ t.pc.toNat = (s.reg 0).toNat + nnn.toNat ∧
    onlyChanged [.counter] s t

/-- CXNN ANDs NN with one random byte, which is consumed: the host's next supplied byte, whatever it is, or the next
free value (43_reg_skip_index_jump_rand.md R303, decision D18, log entry 3). -/
def Obligations.RandomByteUnderAMask : Prop :=
  ∀ (s : State) (x : Reg) (nn : Byte), ∃ t, exec (.rnd x nn) s = .next t ∧
    (∀ r rest, s.randIn = r :: rest → t.reg x = nn &&& r ∧ t.randIn = rest ∧ t.draws = s.draws) ∧
    (s.randIn = [] → t.reg x = nn &&& Config.freeRand s.draws ∧ t.randIn = [] ∧ t.draws = s.draws + 1) ∧
    t.pc = s.pc + 2 ∧ regsKeptBut [x] s t ∧ onlyChanged [.regs, .counter, .random] s t

/-! ## Drawing -/

/-- DXYN, every sprite byte in bounds: exactly the pixels under a 1 bit of the sprite flip, rows and columns wrapping
mod 32 and mod 64, and VF is 1 exactly when such a pixel was active before (44_draw.md R331). -/
def Obligations.DrawFlipsThePixelsUnderTheSprite : Prop :=
  ∀ (s : State) (x y : Reg) (n : Nat), n < 16 → (∀ r < n, loadable (s.i.toNat + r)) →
    ∃ t, exec (.drw x y n) s = .next t ∧
      (∀ q p, t.fb.pixel q p ≠ s.fb.pixel q p ↔ spriteCovers s x y n q p) ∧
      ((∃ q p, spriteCovers s x y n q p ∧ s.fb.pixel q p = true) → t.reg regF = 1) ∧
      ((¬ ∃ q p, spriteCovers s x y n q p ∧ s.fb.pixel q p = true) → t.reg regF = 0) ∧
      t.pc = s.pc + 2 ∧ regsKeptBut [regF] s t ∧ onlyChanged [.regs, .screen, .counter, .output] s t

/-- DXYN with a sprite byte above 0xFFF halts with AddressRangeError at the lowest such address, drawing nothing and
presenting nothing (44_draw.md R330; 20_memory.md R108, 60_exceptions.md R507, decisions D8 and D25, log entries 15 and
25). -/
def Obligations.DrawOutsideMemoryHalts : Prop :=
  ∀ (s : State) (x y : Reg) (n k : Nat), n < 16 → lowestBad loadable s.i.toNat n k →
    ∃ t, exec (.drw x y n) s = .next t ∧
      haltedWith .addressRangeError (some (BitVec.ofNat 16 (0xD000 + x.val * 256 + y.val * 16 + n)))
        (some (s.i.toNat + k)) s t

/-- Drawing the same sprite twice at the same place (coordinates not in VF) restores the screen; the second draw sets
VF to 1 exactly when some pixel under the sprite was inactive before the first (44_draw.md R330, its pseudocode). The VF
clause is the model's choice, log entry 21: it follows R330's pseudocode against the last sentence of R330's own corner
cases. -/
def Obligations.DrawTwiceRestoresTheScreen : Prop :=
  ∀ (s : State) (x y : Reg) (n : Nat), x ≠ regF → y ≠ regF → n < 16 → (∀ r < n, loadable (s.i.toNat + r)) →
    ∃ t u, exec (.drw x y n) s = .next t ∧ exec (.drw x y n) t = .next u ∧
      (∀ q p, u.fb.pixel q p = s.fb.pixel q p) ∧
      (u.reg regF = 1 ↔ ∃ q p, spriteCovers s x y n q p ∧ s.fb.pixel q p = false)

/-- The remark at the end of 44_draw.md R330's corner cases, as its words stand: after drawing the same sprite twice at
the same place, the second draw sets VF = 1 if the sprite has any 1 bit. R330's own pseudocode makes it false where
every pixel under the sprite was active before the first draw. Log entry 21. -/
def Obligations.SecondDrawAlwaysCollides : Prop :=
  ∀ (s t u : State) (x y : Reg) (n : Nat), x ≠ regF → y ≠ regF → n < 16 → (∀ r < n, loadable (s.i.toNat + r)) →
    (∃ q p, spriteCovers s x y n q p) →
    exec (.drw x y n) s = .next t → exec (.drw x y n) t = .next u → u.reg regF = 1

/-- A completed DXYN emits one Present with the grid after the draw, FX18 one Beep with V[X], an error its Fault, and
no other instruction emits anything (44_draw.md R332, 46_misc.md R383, 60_exceptions.md R503, R512, decisions D17, D19
and D23, log entry 12). -/
def Obligations.OutputsOfEveryInstruction : Prop :=
  ∀ (i : Instr) (s t : State), s.status = .running → exec i s = .next t →
    (t.status = .halted → ∃ r, t.fault = some r ∧ t.out = s.out ++ [.fault r]) ∧
    (t.status = .running → t.out = s.out ++ (match i with
      | .drw _ _ _ => [.present t.fb]
      | .beep x => [.beep (s.reg x)]
      | _ => []))

/-! ## Timer, key wait, audio, index and memory blocks -/

/-- FX07 copies DT to V[X], FX15 copies V[X] to DT, and nothing else (46_misc.md R380, R382). -/
def Obligations.MovesTheDelayTimer : Prop :=
  ∀ (s : State) (x : Reg),
    (∃ t, exec (.ldVDt x) s = .next t ∧ t.reg x = s.dt ∧ t.pc = s.pc + 2 ∧
      regsKeptBut [x] s t ∧ onlyChanged [.regs, .counter] s t) ∧
    (∃ t, exec (.ldDtV x) s = .next t ∧ t.dt = s.reg x ∧ t.pc = s.pc + 2 ∧ onlyChanged [.timer, .counter] s t)

/-- FX0A with no key latched changes nothing, the pc included; with a key latched it loads the code and goes on, and the
latch keeps the key (46_misc.md R381, decision D14, log entry 13). -/
def Obligations.WaitsForAKey : Prop :=
  ∀ (s : State) (x : Reg),
    (s.key = none → ∃ t, exec (.ldVKey x) s = .next t ∧ onlyChanged [] s t) ∧
    (∀ k, s.key = some k → ∃ t, exec (.ldVKey x) s = .next t ∧ (t.reg x).toNat = k.val ∧ t.pc = s.pc + 2 ∧
      regsKeptBut [x] s t ∧ onlyChanged [.regs, .counter] s t)

/-- FX18 emits Beep(V[X]) and changes nothing but the pc (46_misc.md R383, decision D17, log entry 12). -/
def Obligations.BeepsAndGoesOn : Prop :=
  ∀ (s : State) (x : Reg), ∃ t, exec (.beep x) s = .next t ∧ t.out = s.out ++ [.beep (s.reg x)] ∧ t.pc = s.pc + 2 ∧
    onlyChanged [.output, .counter] s t

/-- FX1E adds V[X] to I mod 65536, with no flag and no check (46_misc.md R384, decision D10, log entry 14). -/
def Obligations.AddsToTheIndex : Prop :=
  ∀ (s : State) (x : Reg), ∃ t, exec (.addI x) s = .next t ∧ t.i.toNat = (s.i.toNat + (s.reg x).toNat) % 65536 ∧
    t.pc = s.pc + 2 ∧ onlyChanged [.index, .counter] s t

/-- FX29 sets I to V[X] · 5, unmasked (46_misc.md R385). -/
def Obligations.PointsAtAGlyph : Prop :=
  ∀ (s : State) (x : Reg), ∃ t, exec (.ldGlyph x) s = .next t ∧ t.i.toNat = (s.reg x).toNat * 5 ∧ t.pc = s.pc + 2 ∧
    onlyChanged [.index, .counter] s t

/-- FX33 stores the hundreds, tens and ones of V[X] at I, I + 1 and I + 2 and changes no other byte; if one of the three
is not writable it halts at the lowest such address (46_misc.md R386). Memory is assumed canonical, which every step
keeps. -/
def Obligations.StoresDecimalDigits : Prop :=
  ∀ (s : State) (x : Reg), s.memCanonical →
    ((∀ k < 3, storable s (s.i.toNat + k)) → ∃ t, exec (.bcd x) s = .next t ∧
      t.readByte s.i.toNat = BitVec.ofNat 8 ((s.reg x).toNat / 100) ∧
      t.readByte (s.i.toNat + 1) = BitVec.ofNat 8 ((s.reg x).toNat / 10 % 10) ∧
      t.readByte (s.i.toNat + 2) = BitVec.ofNat 8 ((s.reg x).toNat % 10) ∧
      (∀ a, (a < s.i.toNat ∨ s.i.toNat + 3 ≤ a) → t.readByte a = s.readByte a) ∧
      t.pc = s.pc + 2 ∧ onlyChanged [.memory, .counter] s t) ∧
    (∀ k, lowestBad (storable s) s.i.toNat 3 k → ∃ t, exec (.bcd x) s = .next t ∧
      haltedWith .addressRangeError (some (BitVec.ofNat 16 (0xF033 + x.val * 256))) (some (s.i.toNat + k)) s t)

/-- FX55 stores V0..V[X] from I upward, changes no other byte, and moves I past the block mod 65536; if one of the
addresses is not writable it halts at the lowest such address (46_misc.md R387). Memory is assumed canonical. -/
def Obligations.StoresTheRegisterBlock : Prop :=
  ∀ (s : State) (x : Reg), s.memCanonical →
    ((∀ k < x.val + 1, storable s (s.i.toNat + k)) → ∃ t, exec (.storeRegs x) s = .next t ∧
      (∀ r : Reg, r.val ≤ x.val → t.readByte (s.i.toNat + r.val) = s.reg r) ∧
      (∀ a, (a < s.i.toNat ∨ s.i.toNat + x.val < a) → t.readByte a = s.readByte a) ∧
      t.i.toNat = (s.i.toNat + x.val + 1) % 65536 ∧ t.pc = s.pc + 2 ∧
      onlyChanged [.memory, .index, .counter] s t) ∧
    (∀ k, lowestBad (storable s) s.i.toNat (x.val + 1) k → ∃ t, exec (.storeRegs x) s = .next t ∧
      haltedWith .addressRangeError (some (BitVec.ofNat 16 (0xF055 + x.val * 256))) (some (s.i.toNat + k)) s t)

/-- FX65 loads V0..V[X] from I upward, leaves the other registers, and moves I past the block mod 65536; if one of the
addresses is above 0xFFF it halts at the lowest such address (46_misc.md R388). -/
def Obligations.LoadsTheRegisterBlock : Prop :=
  ∀ (s : State) (x : Reg),
    ((∀ k < x.val + 1, loadable (s.i.toNat + k)) → ∃ t, exec (.loadRegs x) s = .next t ∧
      (∀ r : Reg, t.reg r = if r.val ≤ x.val then s.readByte (s.i.toNat + r.val) else s.reg r) ∧
      t.i.toNat = (s.i.toNat + x.val + 1) % 65536 ∧ t.pc = s.pc + 2 ∧
      onlyChanged [.regs, .index, .counter] s t) ∧
    (∀ k, lowestBad loadable s.i.toNat (x.val + 1) k → ∃ t, exec (.loadRegs x) s = .next t ∧
      haltedWith .addressRangeError (some (BitVec.ofNat 16 (0xF065 + x.val * 256))) (some (s.i.toNat + k)) s t)

/-- A block stored by FX55 and loaded by FX65 from the same I gives V0..V[X] back, whatever the registers held in
between (46_misc.md R387, R388; 20_memory.md R113). -/
def Obligations.StoredBlockLoadsBack : Prop :=
  ∀ (s : State) (x : Reg) (w : Vector Byte 16), s.memCanonical → (∀ k < x.val + 1, storable s (s.i.toNat + k)) →
    ∃ t u, exec (.storeRegs x) s = .next t ∧ exec (.loadRegs x) { t with i := s.i, v := w } = .next u ∧
      ∀ r : Reg, r.val ≤ x.val → u.reg r = s.reg r

/-! ## The whole machine -/

/-- Every register an instruction does not write, as destination or as flag register, is unchanged by it
(10_state.md R40, R42). -/
def Obligations.OnlyNamedRegistersAreWritten : Prop :=
  ∀ (i : Instr) (s t : State) (r : Reg), exec i s = .next t → writesReg r i = false → t.reg r = s.reg r

/-- An instruction that commits changes, besides V and pc, only the parts of the state that 10_state.md R69 lists it as
a writer of: only 2NNN and 00EE move the stack, only FX33 and FX55 memory, only 00E0 and DXYN the framebuffer, only FX15
the timer, and none the key latch. -/
def Obligations.OnlyListedPartsAreWritten : Prop :=
  ∀ (i : Instr) (s t : State), s.status = .running → exec i s = .next t → t.status = .running →
    onlyChanged (.regs :: .counter :: writesParts i) s t

/-- Only 2NNN, 00EE, DXYN, FX33, FX55 and FX65 can halt the core once decoded, and then nothing of the instruction has
taken effect (60_exceptions.md R501; R503, decision D11, log entry 27). -/
def Obligations.OnlyListedInstructionsHalt : Prop :=
  ∀ (i : Instr) (s t : State), s.status = .running → exec i s = .next t → t.status = .halted →
    mayRaise i = true ∧ ∃ kind addr, haltedWith kind (some (encode i)) addr s t

/-- Every way an instruction that commits can leave the pc (10_state.md R45, 30_encoding.md R161). -/
def Obligations.PcAfterEveryInstruction : Prop :=
  ∀ (i : Instr) (s t : State), s.status = .running → exec i s = .next t → t.status = .running →
    match i with
    | .jp nnn | .call nnn => t.pc.toNat = nnn.toNat
    | .jpV0 nnn => t.pc.toNat = (s.reg 0).toNat + nnn.toNat
    | .ret => ∃ k : Fin 16, s.spInt = k.val ∧ t.pc = s.stack.get k
    | .seImm _ _ | .sneImm _ _ | .seReg _ _ | .sneReg _ _ | .skp _ | .sknp _ => t.pc = s.pc + 2 ∨ t.pc = s.pc + 4
    | .ldVKey _ => t.pc = if s.key = none then s.pc else s.pc + 2
    | _ => t.pc = s.pc + 2

/-- With LOW_WRITE_PROTECT, no step changes a byte below 0x200: the font and the reserved area are never overwritten
(20_memory.md R102, R109, decision D9, log entry 5). -/
def Obligations.LowMemoryIsNeverWritten : Prop :=
  ∀ (s t : State) (a : Nat), s.memCanonical → s.cfg.lowWriteProtect = true → step s = .next t → a < 0x200 →
    t.readByte a = s.readByte a

/-- No event but a Cycle, scheduled or free, touches registers, pc, stack, memory or screen: the host's events reach a
program only through DT and the key latch (60_exceptions.md R506, R513). -/
def Obligations.EventsDoNotChangeControlFlow : Prop :=
  ∀ (s t : State) (e : HostEvent), s.nextEvent = e → e ≠ .cycle → step s = .next t →
    onlyChanged [.timer, .latch, .events] s t ∧ (e = .tick → onlyChanged [.timer, .events] s t) ∧
      (e ≠ .tick → onlyChanged [.latch, .events] s t)

/-- Nothing the core does depends on what it has emitted: with another history of outputs a step does the same and emits
the same (60_exceptions.md R514, R512). -/
def Obligations.OutputIsNeverRead : Prop :=
  ∀ (s t : State) (o : List OutEvent), step s = .next t →
    ∃ e, t.out = s.out ++ e ∧ step { s with out := o } = .next { t with out := o ++ e }

/-- At a completed run a Cycle leaves the run completed and changes nothing but the debounce counter
(60_exceptions.md R520, decision D22, log entries 22 and 28). -/
def Obligations.CompletedRunStaysCompleted : Prop :=
  ∀ s : State, s.completed → s.nextEvent = .cycle →
    ∃ t, step s = .next t ∧ t.completed ∧ t.key = s.key ∧ onlyChanged [.latch, .events] s t

/-- Every step keeps the invariant: memory canonical, the debounce counter within 0..W, a fault record exactly when
halted, the pc at most 0x10FE and every return address at most 0x1000; and no step changes the parameters
(10_state.md R45, R50, R52; 00_scope.md R6). -/
def Obligations.StepKeepsTheInvariant : Prop :=
  ∀ s t : State, s.inv → step s = .next t → t.inv ∧ t.cfg = s.cfg

/-- The invariant holds at reset. -/
def Obligations.ResetMeetsTheInvariant : Prop := State.reset.inv

/-- The invariant holds of every machine that boots, under any parameters, image and host
(70_reset_and_hazards.md R601). -/
def Obligations.BootMeetsTheInvariant : Prop :=
  ∀ (c : Config) (v : ResetValues) (image : List Byte) (events : List HostEvent) (rand : List Byte) (s : State),
    State.boot c v image events rand = some s → s.inv
end

