-- ==== Sys2Proof/Laws/Decode.lean ====
section
/-! SUPPORT. The fields of a packed word are the values packed into it, format by format (30_encoding.md R142), and the
bytes of a word joined again are the word. -/

namespace Sys2Proof

@[simp] theorem regOf_val (n : Nat) : (regOf n).val = n % 16 := rfl

/-- A register number below 16 names itself. -/
@[simp] theorem regOf_self (x : Reg) : regOf x.val = x := Fin.ext (Nat.mod_eq_of_lt x.isLt)

/-! ## The packed words as numbers -/

theorem packXYN_toNat (c : Nat) (x y : Reg) (n : Nat) (hc : c < 16) (hn : n < 16) :
    (packXYN c x y n).toNat = c * 4096 + x.val * 256 + y.val * 16 + n := by
  simp only [packXYN, BitVec.toNat_ofNat]; omega

theorem packXNN_toNat (c : Nat) (x : Reg) (nn : Byte) (hc : c < 16) :
    (packXNN c x nn).toNat = c * 4096 + x.val * 256 + nn.toNat := by
  have := nn.isLt
  simp only [packXNN, BitVec.toNat_ofNat]; omega

theorem packNNN_toNat (c : Nat) (nnn : Addr12) (hc : c < 16) :
    (packNNN c nnn).toNat = c * 4096 + nnn.toNat := by
  have := nnn.isLt
  simp only [packNNN, BitVec.toNat_ofNat]; omega

/-! ## The fields of the packed words -/

theorem fieldC_packXYN (c : Nat) (x y : Reg) (n : Nat) (hc : c < 16) (hn : n < 16) :
    fieldC (packXYN c x y n) = c := by
  simp only [fieldC, field, packXYN_toNat c x y n hc hn]; omega

theorem fieldX_packXYN (c : Nat) (x y : Reg) (n : Nat) (hc : c < 16) (hn : n < 16) :
    fieldX (packXYN c x y n) = x := by
  apply Fin.ext
  simp only [fieldX, field, regOf_val, packXYN_toNat c x y n hc hn]; omega

theorem fieldY_packXYN (c : Nat) (x y : Reg) (n : Nat) (hc : c < 16) (hn : n < 16) :
    fieldY (packXYN c x y n) = y := by
  apply Fin.ext
  simp only [fieldY, field, regOf_val, packXYN_toNat c x y n hc hn]; omega

theorem fieldN_packXYN (c : Nat) (x y : Reg) (n : Nat) (hc : c < 16) (hn : n < 16) :
    fieldN (packXYN c x y n) = n := by
  simp only [fieldN, field, packXYN_toNat c x y n hc hn]; omega

theorem fieldC_packXNN (c : Nat) (x : Reg) (nn : Byte) (hc : c < 16) : fieldC (packXNN c x nn) = c := by
  have := nn.isLt
  simp only [fieldC, field, packXNN_toNat c x nn hc]; omega

theorem fieldX_packXNN (c : Nat) (x : Reg) (nn : Byte) (hc : c < 16) : fieldX (packXNN c x nn) = x := by
  have := nn.isLt
  apply Fin.ext
  simp only [fieldX, field, regOf_val, packXNN_toNat c x nn hc]; omega

theorem lowField_packXNN (c : Nat) (x : Reg) (nn : Byte) (hc : c < 16) : field (packXNN c x nn) 0 8 = nn.toNat := by
  have := nn.isLt
  simp only [field, packXNN_toNat c x nn hc]; omega

theorem fieldNN_packXNN (c : Nat) (x : Reg) (nn : Byte) (hc : c < 16) : fieldNN (packXNN c x nn) = nn := by
  rw [fieldNN, lowField_packXNN c x nn hc]
  exact BitVec.ofNat_toNat 8 nn |>.trans (BitVec.setWidth_eq nn)

theorem fieldC_packNNN (c : Nat) (nnn : Addr12) (hc : c < 16) : fieldC (packNNN c nnn) = c := by
  have := nnn.isLt
  simp only [fieldC, field, packNNN_toNat c nnn hc]; omega

theorem fieldNNN_packNNN (c : Nat) (nnn : Addr12) (hc : c < 16) : fieldNNN (packNNN c nnn) = nnn := by
  have := nnn.isLt
  apply BitVec.eq_of_toNat_eq
  simp only [fieldNNN, field, packNNN_toNat c nnn hc, BitVec.toNat_ofNat]; omega

/-! ## Words and bytes -/

/-- The bytes of a word, joined big-endian, are the word (20_memory.md R105). -/
@[simp] theorem wordOfBytes_highByte_lowByte (op : Word) : wordOfBytes (highByte op) (lowByte op) = op := by
  have := op.isLt
  apply BitVec.eq_of_toNat_eq
  simp only [wordOfBytes, highByte, lowByte, field, BitVec.toNat_ofNat]; omega

@[simp] theorem highByte_wordOfBytes (hi lo : Byte) : highByte (wordOfBytes hi lo) = hi := by
  have := hi.isLt
  have := lo.isLt
  apply BitVec.eq_of_toNat_eq
  simp only [wordOfBytes, highByte, field, BitVec.toNat_ofNat]; omega

@[simp] theorem lowByte_wordOfBytes (hi lo : Byte) : lowByte (wordOfBytes hi lo) = lo := by
  have := hi.isLt
  have := lo.isLt
  apply BitVec.eq_of_toNat_eq
  simp only [wordOfBytes, lowByte, field, BitVec.toNat_ofNat]; omega

/-! ## The masks of the opcode table as arithmetic -/

/-- The mask 0xF000 keeps the category. -/
theorem and_F000_toNat (w : Word) : (w &&& 0xF000#16).toNat = w.toNat / 4096 * 4096 := by
  have h : w &&& 0xF000#16 = (w >>> 12) <<< 12 := by
    ext i hi
    interval_cases i <;> simp
  have := w.isLt
  simp only [h, BitVec.toNat_shiftLeft, BitVec.toNat_ushiftRight, Nat.shiftRight_eq_div_pow, Nat.shiftLeft_eq]
  omega

/-- A mask of k low bits keeps the remainder. -/
theorem and_low_toNat (w : Word) (k : Nat) (hk : k ≤ 16) : (w &&& BitVec.ofNat 16 (2 ^ k - 1)).toNat = w.toNat % 2 ^ k := by
  have h1 : 2 ^ k ≤ 2 ^ 16 := Nat.pow_le_pow_right (by decide) hk
  have h2 : 0 < 2 ^ k := Nat.two_pow_pos k
  rw [BitVec.toNat_and, BitVec.toNat_ofNat, Nat.mod_eq_of_lt (a := 2 ^ k - 1) (by omega),
    Nat.and_two_pow_sub_one_eq_mod]

/-- The mask 0xF00F keeps the category and the last nibble. -/
theorem and_F00F_toNat (w : Word) : (w &&& 0xF00F#16).toNat = w.toNat / 4096 * 4096 + w.toNat % 16 := by
  have h : w &&& 0xF00F#16 = (w &&& 0xF000#16) ||| (w &&& 0x000F#16) := by
    rw [← BitVec.and_or_distrib_left]; rfl
  have hl : (w &&& 0x000F#16).toNat = w.toNat % 16 := and_low_toNat w 4 (by decide)
  have hs : w.toNat / 4096 * 4096 = (w.toNat / 4096) <<< 12 := by rw [Nat.shiftLeft_eq]
  rw [h, BitVec.toNat_or, and_F000_toNat, hl, hs, ← Nat.shiftLeft_add_eq_or_of_lt (by omega)]

/-- The mask 0xF0FF keeps the category and the low byte. -/
theorem and_F0FF_toNat (w : Word) : (w &&& 0xF0FF#16).toNat = w.toNat / 4096 * 4096 + w.toNat % 256 := by
  have h : w &&& 0xF0FF#16 = (w &&& 0xF000#16) ||| (w &&& 0x00FF#16) := by
    rw [← BitVec.and_or_distrib_left]; rfl
  have hl : (w &&& 0x00FF#16).toNat = w.toNat % 256 := and_low_toNat w 8 (by decide)
  have hs : w.toNat / 4096 * 4096 = (w.toNat / 4096) <<< 12 := by rw [Nat.shiftLeft_eq]
  rw [h, BitVec.toNat_or, and_F000_toNat, hl, hs, ← Nat.shiftLeft_add_eq_or_of_lt (by omega)]

/-- A word lies in a row of mask 0xF000 exactly when its category is the row's. -/
theorem covers_F000 (p w : Word) : (Row.mk p 0xF000).covers w = true ↔ w.toNat / 4096 * 4096 = p.toNat := by
  have h := and_F000_toNat w
  rw [Row.covers, decide_eq_true_eq, ← BitVec.toNat_inj, ← h]
  rfl

/-- A word lies in a row of mask 0xF00F exactly when its category and last nibble are the row's. -/
theorem covers_F00F (p w : Word) :
    (Row.mk p 0xF00F).covers w = true ↔ w.toNat / 4096 * 4096 + w.toNat % 16 = p.toNat := by
  have h := and_F00F_toNat w
  rw [Row.covers, decide_eq_true_eq, ← BitVec.toNat_inj, ← h]
  rfl

/-- A word lies in a row of mask 0xF0FF exactly when its category and low byte are the row's. -/
theorem covers_F0FF (p w : Word) :
    (Row.mk p 0xF0FF).covers w = true ↔ w.toNat / 4096 * 4096 + w.toNat % 256 = p.toNat := by
  have h := and_F0FF_toNat w
  rw [Row.covers, decide_eq_true_eq, ← BitVec.toNat_inj, ← h]
  rfl

end Sys2Proof
end

