-- ==== Sys2Proof/Laws/Framebuffer.lean ====
section
/-! SUPPORT. The laws of the framebuffer: a pixel after a pixel write, and what drawing a row and a sprite do to each
pixel and to the collision (44_draw.md R330, R331). -/

namespace Sys2Proof.Machine

@[simp] theorem rowOf_val (n : Nat) : (rowOf n).val = n % 32 := rfl

@[simp] theorem colOf_val (n : Nat) : (colOf n).val = n % 64 := rfl

/-- A pixel after a pixel write. -/
theorem Framebuffer.pixel_setPixel (fb : Framebuffer) (y q : Fin 32) (x p : Fin 64) (b : Bool) :
    (fb.setPixel y x b).pixel q p = if q = y ∧ p = x then b else fb.pixel q p := by
  simp only [Framebuffer.pixel, Framebuffer.setPixel, Vector.get_eq_getElem, Vector.getElem_set]
  by_cases hq : y.val = q.val
  · have : q = y := Fin.ext hq.symm
    subst this
    by_cases hp : x.val = p.val
    · have : p = x := Fin.ext hp.symm
      subst this
      simp
    · have : p ≠ x := fun e => hp (by rw [e])
      simp [hp, this]
  · have : q ≠ y := fun e => hq (by rw [e])
    simp [hq, this]

@[simp] theorem Framebuffer.pixel_clear (y : Fin 32) (x : Fin 64) : Framebuffer.clear.pixel y x = false := by
  simp [Framebuffer.pixel, Framebuffer.clear, Vector.get_eq_getElem]

/-- Two grids with the same pixels are equal. -/
theorem Framebuffer.ext_pixel (a b : Framebuffer) (h : ∀ y x, a.pixel y x = b.pixel y x) : a = b := by
  apply Vector.ext
  intro y hy
  apply Vector.ext
  intro x hx
  simpa [Framebuffer.pixel, Vector.get_eq_getElem] using h ⟨y, hy⟩ ⟨x, hx⟩

/-- One sprite bit flips exactly its own pixel, and only when it is 1. -/
theorem Canvas.drawBit_pixel (d : Canvas) (y q : Fin 32) (x p : Fin 64) (bit : Bool) :
    (d.drawBit y x bit).fb.pixel q p = (d.fb.pixel q p ^^ (bit && decide (q = y ∧ p = x))) := by
  unfold Canvas.drawBit
  cases bit with
  | false => simp
  | true =>
    simp only [if_true, Framebuffer.pixel_setPixel]
    by_cases h : q = y ∧ p = x
    · obtain ⟨rfl, rfl⟩ := h; simp
    · simp [h]

/-- One sprite bit is a collision when it is 1 and its pixel was. -/
theorem Canvas.drawBit_hit (d : Canvas) (y : Fin 32) (x : Fin 64) (bit : Bool) :
    (d.drawBit y x bit).hit = (d.hit || (bit && d.fb.pixel y x)) := by
  unfold Canvas.drawBit
  cases bit <;> simp

/-- The pixels that the leftmost `k` bits of a row byte flip. -/
theorem Canvas.drawBits_pixel (d : Canvas) (y q : Fin 32) (ox : Nat) (row : Byte) (p : Fin 64) (k : Nat) (hk : k ≤ 64) :
    (d.drawBits y ox row k).fb.pixel q p =
      (d.fb.pixel q p ^^ decide (q = y ∧ ∃ c < k, p = colOf (ox + c) ∧ row.getLsbD (7 - c) = true)) := by
  induction k with
  | zero => simp [Canvas.drawBits]
  | succ k ih =>
    rw [Canvas.drawBits, Canvas.drawBit_pixel, ih (by omega), Bool.xor_assoc]
    congr 1
    by_cases hp : p = colOf (ox + k)
    · have hne : ¬ ∃ c < k, p = colOf (ox + c) ∧ row.getLsbD (7 - c) = true := by
        rintro ⟨c, hc, e, -⟩
        have := congrArg Fin.val (hp.symm.trans e)
        simp only [colOf_val] at this
        omega
      have hiff : (∃ c < k + 1, p = colOf (ox + c) ∧ row.getLsbD (7 - c) = true) ↔ row.getLsbD (7 - k) = true := by
        constructor
        · rintro ⟨c, hc, e, hb⟩
          rcases Nat.lt_succ_iff_lt_or_eq.1 hc with hlt | rfl
          · exact absurd ⟨c, hlt, e, hb⟩ hne
          · exact hb
        · intro hb; exact ⟨k, by omega, hp, hb⟩
      simp only [hne, hiff, eq_true hp, and_true, and_false, decide_false, Bool.false_xor, Bool.decide_and,
        Bool.decide_eq_true, Bool.and_comm]
    · have hiff : (∃ c < k + 1, p = colOf (ox + c) ∧ row.getLsbD (7 - c) = true) ↔
          ∃ c < k, p = colOf (ox + c) ∧ row.getLsbD (7 - c) = true := by
        constructor
        · rintro ⟨c, hc, e, hb⟩
          rcases Nat.lt_succ_iff_lt_or_eq.1 hc with hlt | rfl
          · exact ⟨c, hlt, e, hb⟩
          · exact absurd e hp
        · rintro ⟨c, hc, h⟩; exact ⟨c, by omega, h⟩
      simp only [hiff, hp, and_false, decide_false, Bool.and_false, Bool.xor_false]

/-- The collision of the leftmost `k` bits of a row byte. -/
theorem Canvas.drawBits_hit (d : Canvas) (y : Fin 32) (ox : Nat) (row : Byte) (k : Nat) (hk : k ≤ 64) :
    (d.drawBits y ox row k).hit =
      (d.hit || decide (∃ c < k, row.getLsbD (7 - c) = true ∧ d.fb.pixel y (colOf (ox + c)) = true)) := by
  induction k with
  | zero => simp [Canvas.drawBits]
  | succ k ih =>
    rw [Canvas.drawBits, Canvas.drawBit_hit, ih (by omega), Canvas.drawBits_pixel _ _ _ _ _ _ _ (by omega),
      Bool.or_assoc]
    congr 1
    have hne : ¬ ∃ c < k, colOf (ox + k) = colOf (ox + c) ∧ row.getLsbD (7 - c) = true := by
      rintro ⟨c, hc, e, -⟩
      have := congrArg Fin.val e
      simp only [colOf_val] at this
      omega
    have hiff : (∃ c < k + 1, row.getLsbD (7 - c) = true ∧ d.fb.pixel y (colOf (ox + c)) = true) ↔
        (∃ c < k, row.getLsbD (7 - c) = true ∧ d.fb.pixel y (colOf (ox + c)) = true) ∨
          (row.getLsbD (7 - k) = true ∧ d.fb.pixel y (colOf (ox + k)) = true) :=
      Nat.exists_lt_succ_right
    simp only [hne, and_false, decide_false, Bool.xor_false, hiff, Bool.decide_or, Bool.decide_and, Bool.decide_eq_true]

/-- The pixels a sprite of at most 32 rows flips: those under one of its 1 bits (44_draw.md R331). -/
theorem Canvas.drawRows_pixel (ox : Nat) (q : Fin 32) (p : Fin 64) :
    ∀ (rows : List Byte) (d : Canvas) (oy : Nat), rows.length ≤ 32 →
      (d.drawRows ox oy rows).fb.pixel q p =
        (d.fb.pixel q p ^^ decide (∃ r < rows.length, q = rowOf (oy + r) ∧
          ∃ c < (8 : Nat), p = colOf (ox + c) ∧ (rows.getD r 0).getLsbD (7 - c) = true))
  | [], d, oy, _ => by simp [Canvas.drawRows]
  | row :: rows, d, oy, h => by
    simp only [List.length_cons] at h
    rw [Canvas.drawRows, Canvas.drawRows_pixel ox q p rows _ (oy + 1) (by omega),
      Canvas.drawBits_pixel _ _ _ _ _ _ _ (by omega), Bool.xor_assoc]
    congr 1
    have hsplit : (∃ r < (row :: rows).length, q = rowOf (oy + r) ∧
          ∃ c < (8 : Nat), p = colOf (ox + c) ∧ ((row :: rows).getD r 0).getLsbD (7 - c) = true) ↔
        (q = rowOf oy ∧ ∃ c < (8 : Nat), p = colOf (ox + c) ∧ row.getLsbD (7 - c) = true) ∨
        (∃ r < rows.length, q = rowOf (oy + 1 + r) ∧
          ∃ c < (8 : Nat), p = colOf (ox + c) ∧ (rows.getD r 0).getLsbD (7 - c) = true) := by
      rw [List.length_cons, Nat.exists_lt_succ_left]
      simp only [List.getD_cons_zero, List.getD_cons_succ, Nat.add_zero, Nat.add_assoc, Nat.add_comm 1]
    have hexcl : ¬ ((q = rowOf oy ∧ ∃ c < (8 : Nat), p = colOf (ox + c) ∧ row.getLsbD (7 - c) = true) ∧
        (∃ r < rows.length, q = rowOf (oy + 1 + r) ∧
          ∃ c < (8 : Nat), p = colOf (ox + c) ∧ (rows.getD r 0).getLsbD (7 - c) = true)) := by
      rintro ⟨⟨h1, -⟩, r, hr, h2, -⟩
      have := congrArg Fin.val (h1.symm.trans h2)
      simp only [rowOf_val] at this
      omega
    rw [decide_eq_decide.2 hsplit]
    by_cases hA : q = rowOf oy ∧ ∃ c < (8 : Nat), p = colOf (ox + c) ∧ row.getLsbD (7 - c) = true
    · rw [decide_eq_true hA, decide_eq_false (fun hb => hexcl ⟨hA, hb⟩), decide_eq_true (Or.inl hA)]
      rfl
    · rw [decide_eq_false hA, Bool.false_xor]
      exact decide_eq_decide.2 ⟨Or.inr, fun h => h.resolve_left hA⟩

/-- The collision of a sprite of at most 32 rows: a 1 bit over a pixel that was active before the draw (44_draw.md
R330). -/
theorem Canvas.drawRows_hit (ox : Nat) :
    ∀ (rows : List Byte) (d : Canvas) (oy : Nat), rows.length ≤ 32 →
      (d.drawRows ox oy rows).hit =
        (d.hit || decide (∃ r < rows.length, ∃ c < (8 : Nat), (rows.getD r 0).getLsbD (7 - c) = true ∧
          d.fb.pixel (rowOf (oy + r)) (colOf (ox + c)) = true))
  | [], d, oy, _ => by simp [Canvas.drawRows]
  | row :: rows, d, oy, h => by
    simp only [List.length_cons] at h
    rw [Canvas.drawRows, Canvas.drawRows_hit ox rows _ (oy + 1) (by omega),
      Canvas.drawBits_hit _ _ _ _ _ (by omega), Bool.or_assoc, ← Bool.decide_or]
    congr 1
    apply decide_eq_decide.2
    have hpix : ∀ r < rows.length, ∀ c,
        (d.drawBits (rowOf oy) ox row 8).fb.pixel (rowOf (oy + 1 + r)) (colOf (ox + c)) =
          d.fb.pixel (rowOf (oy + (r + 1))) (colOf (ox + c)) := by
      intro r hr c
      have : rowOf (oy + 1 + r) ≠ rowOf oy := by
        intro e
        have := congrArg Fin.val e
        simp only [rowOf_val] at this
        omega
      rw [Canvas.drawBits_pixel _ _ _ _ _ _ _ (by omega), decide_eq_false (fun h => this h.1), Bool.xor_false,
        show oy + (r + 1) = oy + 1 + r by omega]
    have hsplit := Nat.exists_lt_succ_left (n := rows.length) (p := fun r => ∃ c < (8 : Nat),
      ((row :: rows).getD r 0).getLsbD (7 - c) = true ∧ d.fb.pixel (rowOf (oy + r)) (colOf (ox + c)) = true)
    rw [List.length_cons, hsplit]
    refine or_congr_right ⟨?_, ?_⟩
    · rintro ⟨r, hr, c, hc, hb, hp⟩
      exact ⟨r, hr, c, hc, hb, (hpix r hr c).symm.trans hp⟩
    · rintro ⟨r, hr, c, hc, hb, hp⟩
      exact ⟨r, hr, c, hc, hb, (hpix r hr c).trans hp⟩

end Sys2Proof.Machine
end

