-- ==== Sys2Proof/Laws/Memory.lean ====
section
/-! SUPPORT. The laws of the memory list: a read after a write, and that writing and placing keep the canonical form. -/

namespace Sys2Proof.Machine

/-- What a list with one more entry in front looks up. -/
theorem Memory.lookup_cons (k : Nat) (b : Byte) (m : Memory) (a : Nat) :
    Memory.lookup ((k, b) :: m) a = if k = a then some b else Memory.lookup m a := rfl

/-- An entry below the first address of a canonical list is not in it. -/
theorem Memory.lookup_below (c : Config) :
    ∀ (m : Memory) (lo a : Nat), Memory.wfFrom c lo m = true → a < lo → Memory.lookup m a = none
  | [], _, _, _, _ => rfl
  | (k, b) :: m, lo, a, h, ha => by
    simp only [Memory.wfFrom, Bool.and_eq_true, decide_eq_true_eq] at h
    obtain ⟨⟨h1, -, -⟩, h2⟩ := h
    have hk : k ≠ a := by omega
    simp [Memory.lookup_cons, hk, Memory.lookup_below c m (k + 1) a h2 (by omega)]

/-- A list canonical from one address is canonical from every lower one. -/
theorem Memory.wfFrom_mono (c : Config) (m : Memory) (lo lo' : Nat) (h : lo' ≤ lo)
    (hm : Memory.wfFrom c lo m = true) : Memory.wfFrom c lo' m = true := by
  cases m with
  | nil => rfl
  | cons e m =>
    simp only [Memory.wfFrom, Bool.and_eq_true, decide_eq_true_eq] at hm ⊢
    exact ⟨⟨by omega, hm.1.2⟩, hm.2⟩

/-- Listing an entry in front of later ones keeps the canonical form. -/
theorem Memory.wfFrom_listed (c : Config) (m : Memory) (lo a : Nat) (b : Byte) (h : lo ≤ a) (ha : a < memSize)
    (hm : Memory.wfFrom c (a + 1) m = true) : Memory.wfFrom c lo (Memory.listed c a b m) = true := by
  unfold Memory.listed
  split
  · exact Memory.wfFrom_mono c m (a + 1) lo (by omega) hm
  · next hb => simp [Memory.wfFrom, h, ha, hb, hm]

/-- A write inside the address space keeps the canonical form. -/
theorem Memory.wfFrom_write (c : Config) (a : Nat) (b : Byte) (ha : a < memSize) :
    ∀ (m : Memory) (lo : Nat), lo ≤ a → Memory.wfFrom c lo m = true → Memory.wfFrom c lo (Memory.write c m a b) = true
  | [], lo, h, _ => by
    simpa [Memory.write] using Memory.wfFrom_listed c [] lo a b h ha rfl
  | (k, x) :: m, lo, h, hm => by
    have hm' := hm
    simp only [Memory.wfFrom, Bool.and_eq_true, decide_eq_true_eq] at hm'
    unfold Memory.write
    split
    · next hk =>
      refine Memory.wfFrom_listed c _ lo a b h ha ?_
      simp only [Memory.wfFrom, Bool.and_eq_true, decide_eq_true_eq]
      exact ⟨⟨by omega, hm'.1.2⟩, hm'.2⟩
    · split
      · next hk => exact Memory.wfFrom_listed c m lo a b h ha (by rw [hk]; exact hm'.2)
      · next h1 h2 =>
        simp only [Memory.wfFrom, Bool.and_eq_true, decide_eq_true_eq]
        exact ⟨hm'.1, Memory.wfFrom_write c a b ha m (k + 1) (by omega) hm'.2⟩

/-- A write inside the address space keeps the memory canonical. -/
theorem Memory.wf_write (c : Config) (m : Memory) (a : Nat) (b : Byte) (ha : a < memSize) (hm : m.wf c = true) :
    (m.write c a b).wf c = true :=
  Memory.wfFrom_write c a b ha m 0 (Nat.zero_le a) hm

/-- Placing bytes inside the address space keeps the memory canonical. -/
theorem Memory.wf_place (c : Config) :
    ∀ (bs : List Byte) (m : Memory) (a : Nat), a + bs.length ≤ memSize → m.wf c = true →
      (Memory.place c m a bs).wf c = true
  | [], _, _, _, hm => hm
  | b :: bs, m, a, h, hm => by
    simp only [List.length_cons] at h
    exact Memory.wf_place c bs _ (a + 1) (by omega) (Memory.wf_write c m a b (by omega) hm)

/-- The look-up of the written address. -/
theorem Memory.lookup_listed (c : Config) (m : Memory) (a q : Nat) (b : Byte) (hm : Memory.lookup m a = none) :
    (Memory.lookup (Memory.listed c a b m) q).getD (resetByte c q) =
      if q = a then b else (Memory.lookup m q).getD (resetByte c q) := by
  unfold Memory.listed
  by_cases hq : q = a
  · subst hq
    split
    · next hb => simp [hm, hb]
    · simp [Memory.lookup_cons]
  · rw [if_neg hq]
    split
    · rfl
    · simp [Memory.lookup_cons, Ne.symm hq]

/-- A read after a write, on a list canonical from some address. -/
theorem Memory.read_writeFrom (c : Config) (a q : Nat) (b : Byte) :
    ∀ (m : Memory) (lo : Nat), Memory.wfFrom c lo m = true →
      (Memory.write c m a b).read c q = if q = a then b else m.read c q
  | [], _, _ => by
    simpa [Memory.write, Memory.read] using Memory.lookup_listed c [] a q b rfl
  | (k, x) :: m, lo, hm => by
    have hm' := hm
    simp only [Memory.wfFrom, Bool.and_eq_true, decide_eq_true_eq] at hm'
    unfold Memory.write
    split
    · next hk =>
      refine Memory.lookup_listed c ((k, x) :: m) a q b ?_
      have : k ≠ a := by omega
      simp [Memory.lookup_cons, this, Memory.lookup_below c m (k + 1) a hm'.2 (by omega)]
    · split
      · next h1 hk =>
        have := Memory.lookup_listed c m a q b (Memory.lookup_below c m (k + 1) a hm'.2 (by omega))
        simp only [Memory.read, this, Memory.lookup_cons]
        by_cases hq : q = a
        · simp [hq]
        · have : k ≠ q := by omega
          simp [hq, this]
      · next h1 h2 =>
        have ih := Memory.read_writeFrom c a q b m (k + 1) hm'.2
        simp only [Memory.read, Memory.lookup_cons] at ih ⊢
        by_cases hkq : k = q
        · have : q ≠ a := by omega
          simp [hkq, this]
        · simpa [hkq] using ih

/-- A read after a write: the byte written at its own address, and every other address as before. -/
theorem Memory.read_write (c : Config) (m : Memory) (a q : Nat) (b : Byte) (hm : m.wf c = true) :
    (m.write c a b).read c q = if q = a then b else m.read c q :=
  Memory.read_writeFrom c a q b m 0 hm

/-- An empty list reads as the reset contents. -/
@[simp] theorem Memory.read_nil (c : Config) (a : Nat) : Memory.read c [] a = resetByte c a := rfl

/-- A read after placing bytes: the placed byte inside them, and every other address as before. -/
theorem Memory.read_place (c : Config) :
    ∀ (bs : List Byte) (m : Memory) (a q : Nat), a + bs.length ≤ memSize → m.wf c = true →
      (Memory.place c m a bs).read c q =
        if a ≤ q then (bs[q - a]?).getD (m.read c q) else m.read c q
  | [], m, a, q, _, _ => by simp [Memory.place]
  | b :: bs, m, a, q, h, hm => by
    simp only [List.length_cons] at h
    have hw := Memory.wf_write c m a b (by omega) hm
    rw [Memory.place, Memory.read_place c bs _ (a + 1) q (by omega) hw, Memory.read_write c m a q b hm]
    by_cases h1 : a + 1 ≤ q
    · have h2 : a ≤ q := by omega
      have h3 : q ≠ a := by omega
      obtain ⟨d, rfl⟩ : ∃ d, q = a + 1 + d := ⟨q - (a + 1), by omega⟩
      have h4 : a + 1 + d - a = d + 1 := by omega
      simp [h2, h3, h4]
    · by_cases h2 : q = a
      · subst h2; simp
      · have h3 : ¬ a ≤ q := by omega
        simp [h1, h2, h3]

/-- Canonical lists that read alike are equal: the form is canonical. -/
theorem Memory.ext_read (c : Config) :
    ∀ (m n : Memory) (lo : Nat), Memory.wfFrom c lo m = true → Memory.wfFrom c lo n = true →
      (∀ a, m.read c a = n.read c a) → m = n
  | [], [], _, _, _, _ => rfl
  | [], (k, x) :: n, lo, _, hn, h => by
    simp only [Memory.wfFrom, Bool.and_eq_true, decide_eq_true_eq] at hn
    have := h k
    simp [Memory.read, Memory.lookup] at this
    exact absurd this.symm hn.1.2.2
  | (k, x) :: m, [], lo, hm, _, h => by
    simp only [Memory.wfFrom, Bool.and_eq_true, decide_eq_true_eq] at hm
    have := h k
    simp [Memory.read, Memory.lookup] at this
    exact absurd this hm.1.2.2
  | (k, x) :: m, (j, y) :: n, lo, hm, hn, h => by
    simp only [Memory.wfFrom, Bool.and_eq_true, decide_eq_true_eq] at hm hn
    have hk := h k
    have hj := h j
    simp only [Memory.read, Memory.lookup_cons] at hk hj
    have hkj : k = j := by
      rcases Nat.lt_trichotomy k j with hlt | heq | hgt
      · have e : Memory.lookup n k = none := Memory.lookup_below c n (j + 1) k hn.2 (by omega)
        have : j ≠ k := by omega
        simp [e, this] at hk
        exact absurd hk hm.1.2.2
      · exact heq
      · have e : Memory.lookup m j = none := Memory.lookup_below c m (k + 1) j hm.2 (by omega)
        have : k ≠ j := by omega
        simp [e, this] at hj
        exact absurd hj.symm hn.1.2.2
    subst hkj
    have hxy : x = y := by simpa using hk
    subst hxy
    have := Memory.ext_read c m n (k + 1) hm.2 hn.2 (fun a => by
      have ha := h a
      simp only [Memory.read, Memory.lookup_cons] at ha ⊢
      by_cases hka : k = a
      · subst hka
        simp [Memory.lookup_below c m (k + 1) k hm.2 (by omega), Memory.lookup_below c n (k + 1) k hn.2 (by omega)]
      · simpa [hka] using ha)
    rw [this]

end Sys2Proof.Machine
end

