-- ==== Sys2Proof/Laws/State.lean ====
section
/-! SUPPORT. One lemma per field per update of the state, each true by `rfl` and in the simp set, so that no later proof
unfolds a record update; and what a register read gives after a register write. -/

namespace Sys2Proof.Machine

/-! ## `State.setReg` -/

@[simp] theorem State.setReg_v (s : State) (r : Reg) (b : Byte) : (s.setReg r b).v = s.v.set r.val b r.isLt := rfl
@[simp] theorem State.setReg_i (s : State) (r : Reg) (b : Byte) : (s.setReg r b).i = s.i := rfl
@[simp] theorem State.setReg_pc (s : State) (r : Reg) (b : Byte) : (s.setReg r b).pc = s.pc := rfl
@[simp] theorem State.setReg_sp (s : State) (r : Reg) (b : Byte) : (s.setReg r b).sp = s.sp := rfl
@[simp] theorem State.setReg_stack (s : State) (r : Reg) (b : Byte) : (s.setReg r b).stack = s.stack := rfl
@[simp] theorem State.setReg_dt (s : State) (r : Reg) (b : Byte) : (s.setReg r b).dt = s.dt := rfl
@[simp] theorem State.setReg_key (s : State) (r : Reg) (b : Byte) : (s.setReg r b).key = s.key := rfl
@[simp] theorem State.setReg_kcnt (s : State) (r : Reg) (b : Byte) : (s.setReg r b).kcnt = s.kcnt := rfl
@[simp] theorem State.setReg_fb (s : State) (r : Reg) (b : Byte) : (s.setReg r b).fb = s.fb := rfl
@[simp] theorem State.setReg_mem (s : State) (r : Reg) (b : Byte) : (s.setReg r b).mem = s.mem := rfl
@[simp] theorem State.setReg_status (s : State) (r : Reg) (b : Byte) : (s.setReg r b).status = s.status := rfl
@[simp] theorem State.setReg_fault (s : State) (r : Reg) (b : Byte) : (s.setReg r b).fault = s.fault := rfl
@[simp] theorem State.setReg_cfg (s : State) (r : Reg) (b : Byte) : (s.setReg r b).cfg = s.cfg := rfl
@[simp] theorem State.setReg_schedule (s : State) (r : Reg) (b : Byte) : (s.setReg r b).schedule = s.schedule := rfl
@[simp] theorem State.setReg_randIn (s : State) (r : Reg) (b : Byte) : (s.setReg r b).randIn = s.randIn := rfl
@[simp] theorem State.setReg_draws (s : State) (r : Reg) (b : Byte) : (s.setReg r b).draws = s.draws := rfl
@[simp] theorem State.setReg_arrivals (s : State) (r : Reg) (b : Byte) : (s.setReg r b).arrivals = s.arrivals := rfl
@[simp] theorem State.setReg_out (s : State) (r : Reg) (b : Byte) : (s.setReg r b).out = s.out := rfl

/-! ## `State.setIndex` -/

@[simp] theorem State.setIndex_v (s : State) (w : Word) : (s.setIndex w).v = s.v := rfl
@[simp] theorem State.setIndex_i (s : State) (w : Word) : (s.setIndex w).i = w := rfl
@[simp] theorem State.setIndex_pc (s : State) (w : Word) : (s.setIndex w).pc = s.pc := rfl
@[simp] theorem State.setIndex_sp (s : State) (w : Word) : (s.setIndex w).sp = s.sp := rfl
@[simp] theorem State.setIndex_stack (s : State) (w : Word) : (s.setIndex w).stack = s.stack := rfl
@[simp] theorem State.setIndex_dt (s : State) (w : Word) : (s.setIndex w).dt = s.dt := rfl
@[simp] theorem State.setIndex_key (s : State) (w : Word) : (s.setIndex w).key = s.key := rfl
@[simp] theorem State.setIndex_kcnt (s : State) (w : Word) : (s.setIndex w).kcnt = s.kcnt := rfl
@[simp] theorem State.setIndex_fb (s : State) (w : Word) : (s.setIndex w).fb = s.fb := rfl
@[simp] theorem State.setIndex_mem (s : State) (w : Word) : (s.setIndex w).mem = s.mem := rfl
@[simp] theorem State.setIndex_status (s : State) (w : Word) : (s.setIndex w).status = s.status := rfl
@[simp] theorem State.setIndex_fault (s : State) (w : Word) : (s.setIndex w).fault = s.fault := rfl
@[simp] theorem State.setIndex_cfg (s : State) (w : Word) : (s.setIndex w).cfg = s.cfg := rfl
@[simp] theorem State.setIndex_schedule (s : State) (w : Word) : (s.setIndex w).schedule = s.schedule := rfl
@[simp] theorem State.setIndex_randIn (s : State) (w : Word) : (s.setIndex w).randIn = s.randIn := rfl
@[simp] theorem State.setIndex_draws (s : State) (w : Word) : (s.setIndex w).draws = s.draws := rfl
@[simp] theorem State.setIndex_arrivals (s : State) (w : Word) : (s.setIndex w).arrivals = s.arrivals := rfl
@[simp] theorem State.setIndex_out (s : State) (w : Word) : (s.setIndex w).out = s.out := rfl

/-! ## `State.setTimer` -/

@[simp] theorem State.setTimer_v (s : State) (b : Byte) : (s.setTimer b).v = s.v := rfl
@[simp] theorem State.setTimer_i (s : State) (b : Byte) : (s.setTimer b).i = s.i := rfl
@[simp] theorem State.setTimer_pc (s : State) (b : Byte) : (s.setTimer b).pc = s.pc := rfl
@[simp] theorem State.setTimer_sp (s : State) (b : Byte) : (s.setTimer b).sp = s.sp := rfl
@[simp] theorem State.setTimer_stack (s : State) (b : Byte) : (s.setTimer b).stack = s.stack := rfl
@[simp] theorem State.setTimer_dt (s : State) (b : Byte) : (s.setTimer b).dt = b := rfl
@[simp] theorem State.setTimer_key (s : State) (b : Byte) : (s.setTimer b).key = s.key := rfl
@[simp] theorem State.setTimer_kcnt (s : State) (b : Byte) : (s.setTimer b).kcnt = s.kcnt := rfl
@[simp] theorem State.setTimer_fb (s : State) (b : Byte) : (s.setTimer b).fb = s.fb := rfl
@[simp] theorem State.setTimer_mem (s : State) (b : Byte) : (s.setTimer b).mem = s.mem := rfl
@[simp] theorem State.setTimer_status (s : State) (b : Byte) : (s.setTimer b).status = s.status := rfl
@[simp] theorem State.setTimer_fault (s : State) (b : Byte) : (s.setTimer b).fault = s.fault := rfl
@[simp] theorem State.setTimer_cfg (s : State) (b : Byte) : (s.setTimer b).cfg = s.cfg := rfl
@[simp] theorem State.setTimer_schedule (s : State) (b : Byte) : (s.setTimer b).schedule = s.schedule := rfl
@[simp] theorem State.setTimer_randIn (s : State) (b : Byte) : (s.setTimer b).randIn = s.randIn := rfl
@[simp] theorem State.setTimer_draws (s : State) (b : Byte) : (s.setTimer b).draws = s.draws := rfl
@[simp] theorem State.setTimer_arrivals (s : State) (b : Byte) : (s.setTimer b).arrivals = s.arrivals := rfl
@[simp] theorem State.setTimer_out (s : State) (b : Byte) : (s.setTimer b).out = s.out := rfl

/-! ## `State.jump` -/

@[simp] theorem State.jump_v (s : State) (w : Word) : (s.jump w).v = s.v := rfl
@[simp] theorem State.jump_i (s : State) (w : Word) : (s.jump w).i = s.i := rfl
@[simp] theorem State.jump_pc (s : State) (w : Word) : (s.jump w).pc = w := rfl
@[simp] theorem State.jump_sp (s : State) (w : Word) : (s.jump w).sp = s.sp := rfl
@[simp] theorem State.jump_stack (s : State) (w : Word) : (s.jump w).stack = s.stack := rfl
@[simp] theorem State.jump_dt (s : State) (w : Word) : (s.jump w).dt = s.dt := rfl
@[simp] theorem State.jump_key (s : State) (w : Word) : (s.jump w).key = s.key := rfl
@[simp] theorem State.jump_kcnt (s : State) (w : Word) : (s.jump w).kcnt = s.kcnt := rfl
@[simp] theorem State.jump_fb (s : State) (w : Word) : (s.jump w).fb = s.fb := rfl
@[simp] theorem State.jump_mem (s : State) (w : Word) : (s.jump w).mem = s.mem := rfl
@[simp] theorem State.jump_status (s : State) (w : Word) : (s.jump w).status = s.status := rfl
@[simp] theorem State.jump_fault (s : State) (w : Word) : (s.jump w).fault = s.fault := rfl
@[simp] theorem State.jump_cfg (s : State) (w : Word) : (s.jump w).cfg = s.cfg := rfl
@[simp] theorem State.jump_schedule (s : State) (w : Word) : (s.jump w).schedule = s.schedule := rfl
@[simp] theorem State.jump_randIn (s : State) (w : Word) : (s.jump w).randIn = s.randIn := rfl
@[simp] theorem State.jump_draws (s : State) (w : Word) : (s.jump w).draws = s.draws := rfl
@[simp] theorem State.jump_arrivals (s : State) (w : Word) : (s.jump w).arrivals = s.arrivals := rfl
@[simp] theorem State.jump_out (s : State) (w : Word) : (s.jump w).out = s.out := rfl

/-! ## `State.advance` -/

@[simp] theorem State.advance_v (s : State) : s.advance.v = s.v := rfl
@[simp] theorem State.advance_i (s : State) : s.advance.i = s.i := rfl
@[simp] theorem State.advance_pc (s : State) : s.advance.pc = s.pc + 2 := rfl
@[simp] theorem State.advance_sp (s : State) : s.advance.sp = s.sp := rfl
@[simp] theorem State.advance_stack (s : State) : s.advance.stack = s.stack := rfl
@[simp] theorem State.advance_dt (s : State) : s.advance.dt = s.dt := rfl
@[simp] theorem State.advance_key (s : State) : s.advance.key = s.key := rfl
@[simp] theorem State.advance_kcnt (s : State) : s.advance.kcnt = s.kcnt := rfl
@[simp] theorem State.advance_fb (s : State) : s.advance.fb = s.fb := rfl
@[simp] theorem State.advance_mem (s : State) : s.advance.mem = s.mem := rfl
@[simp] theorem State.advance_status (s : State) : s.advance.status = s.status := rfl
@[simp] theorem State.advance_fault (s : State) : s.advance.fault = s.fault := rfl
@[simp] theorem State.advance_cfg (s : State) : s.advance.cfg = s.cfg := rfl
@[simp] theorem State.advance_schedule (s : State) : s.advance.schedule = s.schedule := rfl
@[simp] theorem State.advance_randIn (s : State) : s.advance.randIn = s.randIn := rfl
@[simp] theorem State.advance_draws (s : State) : s.advance.draws = s.draws := rfl
@[simp] theorem State.advance_arrivals (s : State) : s.advance.arrivals = s.arrivals := rfl
@[simp] theorem State.advance_out (s : State) : s.advance.out = s.out := rfl

/-! ## `State.writeByte` -/

@[simp] theorem State.writeByte_v (s : State) (a : Nat) (b : Byte) : (s.writeByte a b).v = s.v := rfl
@[simp] theorem State.writeByte_i (s : State) (a : Nat) (b : Byte) : (s.writeByte a b).i = s.i := rfl
@[simp] theorem State.writeByte_pc (s : State) (a : Nat) (b : Byte) : (s.writeByte a b).pc = s.pc := rfl
@[simp] theorem State.writeByte_sp (s : State) (a : Nat) (b : Byte) : (s.writeByte a b).sp = s.sp := rfl
@[simp] theorem State.writeByte_stack (s : State) (a : Nat) (b : Byte) : (s.writeByte a b).stack = s.stack := rfl
@[simp] theorem State.writeByte_dt (s : State) (a : Nat) (b : Byte) : (s.writeByte a b).dt = s.dt := rfl
@[simp] theorem State.writeByte_key (s : State) (a : Nat) (b : Byte) : (s.writeByte a b).key = s.key := rfl
@[simp] theorem State.writeByte_kcnt (s : State) (a : Nat) (b : Byte) : (s.writeByte a b).kcnt = s.kcnt := rfl
@[simp] theorem State.writeByte_fb (s : State) (a : Nat) (b : Byte) : (s.writeByte a b).fb = s.fb := rfl
@[simp] theorem State.writeByte_mem (s : State) (a : Nat) (b : Byte) : (s.writeByte a b).mem = s.mem.write s.cfg a b := rfl
@[simp] theorem State.writeByte_status (s : State) (a : Nat) (b : Byte) : (s.writeByte a b).status = s.status := rfl
@[simp] theorem State.writeByte_fault (s : State) (a : Nat) (b : Byte) : (s.writeByte a b).fault = s.fault := rfl
@[simp] theorem State.writeByte_cfg (s : State) (a : Nat) (b : Byte) : (s.writeByte a b).cfg = s.cfg := rfl
@[simp] theorem State.writeByte_schedule (s : State) (a : Nat) (b : Byte) : (s.writeByte a b).schedule = s.schedule := rfl
@[simp] theorem State.writeByte_randIn (s : State) (a : Nat) (b : Byte) : (s.writeByte a b).randIn = s.randIn := rfl
@[simp] theorem State.writeByte_draws (s : State) (a : Nat) (b : Byte) : (s.writeByte a b).draws = s.draws := rfl
@[simp] theorem State.writeByte_arrivals (s : State) (a : Nat) (b : Byte) : (s.writeByte a b).arrivals = s.arrivals := rfl
@[simp] theorem State.writeByte_out (s : State) (a : Nat) (b : Byte) : (s.writeByte a b).out = s.out := rfl

/-! ## `State.emit` -/

@[simp] theorem State.emit_v (s : State) (e : OutEvent) : (s.emit e).v = s.v := rfl
@[simp] theorem State.emit_i (s : State) (e : OutEvent) : (s.emit e).i = s.i := rfl
@[simp] theorem State.emit_pc (s : State) (e : OutEvent) : (s.emit e).pc = s.pc := rfl
@[simp] theorem State.emit_sp (s : State) (e : OutEvent) : (s.emit e).sp = s.sp := rfl
@[simp] theorem State.emit_stack (s : State) (e : OutEvent) : (s.emit e).stack = s.stack := rfl
@[simp] theorem State.emit_dt (s : State) (e : OutEvent) : (s.emit e).dt = s.dt := rfl
@[simp] theorem State.emit_key (s : State) (e : OutEvent) : (s.emit e).key = s.key := rfl
@[simp] theorem State.emit_kcnt (s : State) (e : OutEvent) : (s.emit e).kcnt = s.kcnt := rfl
@[simp] theorem State.emit_fb (s : State) (e : OutEvent) : (s.emit e).fb = s.fb := rfl
@[simp] theorem State.emit_mem (s : State) (e : OutEvent) : (s.emit e).mem = s.mem := rfl
@[simp] theorem State.emit_status (s : State) (e : OutEvent) : (s.emit e).status = s.status := rfl
@[simp] theorem State.emit_fault (s : State) (e : OutEvent) : (s.emit e).fault = s.fault := rfl
@[simp] theorem State.emit_cfg (s : State) (e : OutEvent) : (s.emit e).cfg = s.cfg := rfl
@[simp] theorem State.emit_schedule (s : State) (e : OutEvent) : (s.emit e).schedule = s.schedule := rfl
@[simp] theorem State.emit_randIn (s : State) (e : OutEvent) : (s.emit e).randIn = s.randIn := rfl
@[simp] theorem State.emit_draws (s : State) (e : OutEvent) : (s.emit e).draws = s.draws := rfl
@[simp] theorem State.emit_arrivals (s : State) (e : OutEvent) : (s.emit e).arrivals = s.arrivals := rfl
@[simp] theorem State.emit_out (s : State) (e : OutEvent) : (s.emit e).out = s.out ++ [e] := rfl

/-! ## `State.halt` -/

@[simp] theorem State.halt_v (s : State) (r : FaultRecord) : (s.halt r).v = s.v := rfl
@[simp] theorem State.halt_i (s : State) (r : FaultRecord) : (s.halt r).i = s.i := rfl
@[simp] theorem State.halt_pc (s : State) (r : FaultRecord) : (s.halt r).pc = s.pc := rfl
@[simp] theorem State.halt_sp (s : State) (r : FaultRecord) : (s.halt r).sp = s.sp := rfl
@[simp] theorem State.halt_stack (s : State) (r : FaultRecord) : (s.halt r).stack = s.stack := rfl
@[simp] theorem State.halt_dt (s : State) (r : FaultRecord) : (s.halt r).dt = s.dt := rfl
@[simp] theorem State.halt_key (s : State) (r : FaultRecord) : (s.halt r).key = s.key := rfl
@[simp] theorem State.halt_kcnt (s : State) (r : FaultRecord) : (s.halt r).kcnt = s.kcnt := rfl
@[simp] theorem State.halt_fb (s : State) (r : FaultRecord) : (s.halt r).fb = s.fb := rfl
@[simp] theorem State.halt_mem (s : State) (r : FaultRecord) : (s.halt r).mem = s.mem := rfl
@[simp] theorem State.halt_status (s : State) (r : FaultRecord) : (s.halt r).status = .halted := rfl
@[simp] theorem State.halt_fault (s : State) (r : FaultRecord) : (s.halt r).fault = some r := rfl
@[simp] theorem State.halt_cfg (s : State) (r : FaultRecord) : (s.halt r).cfg = s.cfg := rfl
@[simp] theorem State.halt_schedule (s : State) (r : FaultRecord) : (s.halt r).schedule = s.schedule := rfl
@[simp] theorem State.halt_randIn (s : State) (r : FaultRecord) : (s.halt r).randIn = s.randIn := rfl
@[simp] theorem State.halt_draws (s : State) (r : FaultRecord) : (s.halt r).draws = s.draws := rfl
@[simp] theorem State.halt_arrivals (s : State) (r : FaultRecord) : (s.halt r).arrivals = s.arrivals := rfl
@[simp] theorem State.halt_out (s : State) (r : FaultRecord) : (s.halt r).out = s.out ++ [.fault r] := rfl

/-! ## `State.push` -/

@[simp] theorem State.push_v (s : State) (k : Fin 16) (w : Word) : (s.push k w).v = s.v := rfl
@[simp] theorem State.push_i (s : State) (k : Fin 16) (w : Word) : (s.push k w).i = s.i := rfl
@[simp] theorem State.push_pc (s : State) (k : Fin 16) (w : Word) : (s.push k w).pc = s.pc := rfl
@[simp] theorem State.push_sp (s : State) (k : Fin 16) (w : Word) : (s.push k w).sp = some k := rfl
@[simp] theorem State.push_stack (s : State) (k : Fin 16) (w : Word) : (s.push k w).stack = s.stack.set k.val w k.isLt := rfl
@[simp] theorem State.push_dt (s : State) (k : Fin 16) (w : Word) : (s.push k w).dt = s.dt := rfl
@[simp] theorem State.push_key (s : State) (k : Fin 16) (w : Word) : (s.push k w).key = s.key := rfl
@[simp] theorem State.push_kcnt (s : State) (k : Fin 16) (w : Word) : (s.push k w).kcnt = s.kcnt := rfl
@[simp] theorem State.push_fb (s : State) (k : Fin 16) (w : Word) : (s.push k w).fb = s.fb := rfl
@[simp] theorem State.push_mem (s : State) (k : Fin 16) (w : Word) : (s.push k w).mem = s.mem := rfl
@[simp] theorem State.push_status (s : State) (k : Fin 16) (w : Word) : (s.push k w).status = s.status := rfl
@[simp] theorem State.push_fault (s : State) (k : Fin 16) (w : Word) : (s.push k w).fault = s.fault := rfl
@[simp] theorem State.push_cfg (s : State) (k : Fin 16) (w : Word) : (s.push k w).cfg = s.cfg := rfl
@[simp] theorem State.push_schedule (s : State) (k : Fin 16) (w : Word) : (s.push k w).schedule = s.schedule := rfl
@[simp] theorem State.push_randIn (s : State) (k : Fin 16) (w : Word) : (s.push k w).randIn = s.randIn := rfl
@[simp] theorem State.push_draws (s : State) (k : Fin 16) (w : Word) : (s.push k w).draws = s.draws := rfl
@[simp] theorem State.push_arrivals (s : State) (k : Fin 16) (w : Word) : (s.push k w).arrivals = s.arrivals := rfl
@[simp] theorem State.push_out (s : State) (k : Fin 16) (w : Word) : (s.push k w).out = s.out := rfl

/-! ## `State.drop` -/

@[simp] theorem State.drop_v (s : State) (k : Fin 16) : (s.drop k).v = s.v := rfl
@[simp] theorem State.drop_i (s : State) (k : Fin 16) : (s.drop k).i = s.i := rfl
@[simp] theorem State.drop_pc (s : State) (k : Fin 16) : (s.drop k).pc = s.pc := rfl
@[simp] theorem State.drop_sp (s : State) (k : Fin 16) : (s.drop k).sp = slotBelow k := rfl
@[simp] theorem State.drop_stack (s : State) (k : Fin 16) : (s.drop k).stack = s.stack := rfl
@[simp] theorem State.drop_dt (s : State) (k : Fin 16) : (s.drop k).dt = s.dt := rfl
@[simp] theorem State.drop_key (s : State) (k : Fin 16) : (s.drop k).key = s.key := rfl
@[simp] theorem State.drop_kcnt (s : State) (k : Fin 16) : (s.drop k).kcnt = s.kcnt := rfl
@[simp] theorem State.drop_fb (s : State) (k : Fin 16) : (s.drop k).fb = s.fb := rfl
@[simp] theorem State.drop_mem (s : State) (k : Fin 16) : (s.drop k).mem = s.mem := rfl
@[simp] theorem State.drop_status (s : State) (k : Fin 16) : (s.drop k).status = s.status := rfl
@[simp] theorem State.drop_fault (s : State) (k : Fin 16) : (s.drop k).fault = s.fault := rfl
@[simp] theorem State.drop_cfg (s : State) (k : Fin 16) : (s.drop k).cfg = s.cfg := rfl
@[simp] theorem State.drop_schedule (s : State) (k : Fin 16) : (s.drop k).schedule = s.schedule := rfl
@[simp] theorem State.drop_randIn (s : State) (k : Fin 16) : (s.drop k).randIn = s.randIn := rfl
@[simp] theorem State.drop_draws (s : State) (k : Fin 16) : (s.drop k).draws = s.draws := rfl
@[simp] theorem State.drop_arrivals (s : State) (k : Fin 16) : (s.drop k).arrivals = s.arrivals := rfl
@[simp] theorem State.drop_out (s : State) (k : Fin 16) : (s.drop k).out = s.out := rfl

/-! ## `State.countCycle` -/

@[simp] theorem State.countCycle_v (s : State) : s.countCycle.v = s.v := rfl
@[simp] theorem State.countCycle_i (s : State) : s.countCycle.i = s.i := rfl
@[simp] theorem State.countCycle_pc (s : State) : s.countCycle.pc = s.pc := rfl
@[simp] theorem State.countCycle_sp (s : State) : s.countCycle.sp = s.sp := rfl
@[simp] theorem State.countCycle_stack (s : State) : s.countCycle.stack = s.stack := rfl
@[simp] theorem State.countCycle_dt (s : State) : s.countCycle.dt = s.dt := rfl
@[simp] theorem State.countCycle_key (s : State) : s.countCycle.key = s.key := rfl
@[simp] theorem State.countCycle_kcnt (s : State) : s.countCycle.kcnt = min (s.kcnt + 1) s.cfg.window := rfl
@[simp] theorem State.countCycle_fb (s : State) : s.countCycle.fb = s.fb := rfl
@[simp] theorem State.countCycle_mem (s : State) : s.countCycle.mem = s.mem := rfl
@[simp] theorem State.countCycle_status (s : State) : s.countCycle.status = s.status := rfl
@[simp] theorem State.countCycle_fault (s : State) : s.countCycle.fault = s.fault := rfl
@[simp] theorem State.countCycle_cfg (s : State) : s.countCycle.cfg = s.cfg := rfl
@[simp] theorem State.countCycle_schedule (s : State) : s.countCycle.schedule = s.schedule := rfl
@[simp] theorem State.countCycle_randIn (s : State) : s.countCycle.randIn = s.randIn := rfl
@[simp] theorem State.countCycle_draws (s : State) : s.countCycle.draws = s.draws := rfl
@[simp] theorem State.countCycle_arrivals (s : State) : s.countCycle.arrivals = s.arrivals := rfl
@[simp] theorem State.countCycle_out (s : State) : s.countCycle.out = s.out := rfl

/-! ## `State.eventTaken` -/

@[simp] theorem State.eventTaken_v (s : State) : s.eventTaken.v = s.v := rfl
@[simp] theorem State.eventTaken_i (s : State) : s.eventTaken.i = s.i := rfl
@[simp] theorem State.eventTaken_pc (s : State) : s.eventTaken.pc = s.pc := rfl
@[simp] theorem State.eventTaken_sp (s : State) : s.eventTaken.sp = s.sp := rfl
@[simp] theorem State.eventTaken_stack (s : State) : s.eventTaken.stack = s.stack := rfl
@[simp] theorem State.eventTaken_dt (s : State) : s.eventTaken.dt = s.dt := rfl
@[simp] theorem State.eventTaken_key (s : State) : s.eventTaken.key = s.key := rfl
@[simp] theorem State.eventTaken_kcnt (s : State) : s.eventTaken.kcnt = s.kcnt := rfl
@[simp] theorem State.eventTaken_fb (s : State) : s.eventTaken.fb = s.fb := rfl
@[simp] theorem State.eventTaken_mem (s : State) : s.eventTaken.mem = s.mem := rfl
@[simp] theorem State.eventTaken_status (s : State) : s.eventTaken.status = s.status := rfl
@[simp] theorem State.eventTaken_fault (s : State) : s.eventTaken.fault = s.fault := rfl
@[simp] theorem State.eventTaken_cfg (s : State) : s.eventTaken.cfg = s.cfg := rfl
@[simp] theorem State.eventTaken_schedule (s : State) : s.eventTaken.schedule = s.schedule.tail := rfl
@[simp] theorem State.eventTaken_randIn (s : State) : s.eventTaken.randIn = s.randIn := rfl
@[simp] theorem State.eventTaken_draws (s : State) : s.eventTaken.draws = s.draws := rfl
@[simp] theorem State.eventTaken_arrivals (s : State) :
    s.eventTaken.arrivals = if s.schedule = [] then s.arrivals + 1 else s.arrivals := rfl
@[simp] theorem State.eventTaken_out (s : State) : s.eventTaken.out = s.out := rfl

/-! ## `State.keyUp` -/

@[simp] theorem State.keyUp_v (s : State) (k : KeyCode) : (s.keyUp k).v = s.v := rfl
@[simp] theorem State.keyUp_i (s : State) (k : KeyCode) : (s.keyUp k).i = s.i := rfl
@[simp] theorem State.keyUp_pc (s : State) (k : KeyCode) : (s.keyUp k).pc = s.pc := rfl
@[simp] theorem State.keyUp_sp (s : State) (k : KeyCode) : (s.keyUp k).sp = s.sp := rfl
@[simp] theorem State.keyUp_stack (s : State) (k : KeyCode) : (s.keyUp k).stack = s.stack := rfl
@[simp] theorem State.keyUp_dt (s : State) (k : KeyCode) : (s.keyUp k).dt = s.dt := rfl
@[simp] theorem State.keyUp_key (s : State) (k : KeyCode) : (s.keyUp k).key = none := rfl
@[simp] theorem State.keyUp_kcnt (s : State) (k : KeyCode) : (s.keyUp k).kcnt = s.kcnt := rfl
@[simp] theorem State.keyUp_fb (s : State) (k : KeyCode) : (s.keyUp k).fb = s.fb := rfl
@[simp] theorem State.keyUp_mem (s : State) (k : KeyCode) : (s.keyUp k).mem = s.mem := rfl
@[simp] theorem State.keyUp_status (s : State) (k : KeyCode) : (s.keyUp k).status = s.status := rfl
@[simp] theorem State.keyUp_fault (s : State) (k : KeyCode) : (s.keyUp k).fault = s.fault := rfl
@[simp] theorem State.keyUp_cfg (s : State) (k : KeyCode) : (s.keyUp k).cfg = s.cfg := rfl
@[simp] theorem State.keyUp_schedule (s : State) (k : KeyCode) : (s.keyUp k).schedule = s.schedule := rfl
@[simp] theorem State.keyUp_randIn (s : State) (k : KeyCode) : (s.keyUp k).randIn = s.randIn := rfl
@[simp] theorem State.keyUp_draws (s : State) (k : KeyCode) : (s.keyUp k).draws = s.draws := rfl
@[simp] theorem State.keyUp_arrivals (s : State) (k : KeyCode) : (s.keyUp k).arrivals = s.arrivals := rfl
@[simp] theorem State.keyUp_out (s : State) (k : KeyCode) : (s.keyUp k).out = s.out := rfl

/-! ## `State.skipIf`, `State.consumeRand`, `State.tick`, `State.keyDown` -/

@[simp] theorem State.skipIf_pc (s : State) (c : Bool) : (s.skipIf c).pc = if c then s.pc + 4 else s.pc + 2 := by
  cases c <;> rfl
@[simp] theorem State.skipIf_v (s : State) (c : Bool) : (s.skipIf c).v = s.v := by cases c <;> rfl
@[simp] theorem State.skipIf_i (s : State) (c : Bool) : (s.skipIf c).i = s.i := by cases c <;> rfl
@[simp] theorem State.skipIf_sp (s : State) (c : Bool) : (s.skipIf c).sp = s.sp := by cases c <;> rfl
@[simp] theorem State.skipIf_stack (s : State) (c : Bool) : (s.skipIf c).stack = s.stack := by cases c <;> rfl
@[simp] theorem State.skipIf_dt (s : State) (c : Bool) : (s.skipIf c).dt = s.dt := by cases c <;> rfl
@[simp] theorem State.skipIf_key (s : State) (c : Bool) : (s.skipIf c).key = s.key := by cases c <;> rfl
@[simp] theorem State.skipIf_kcnt (s : State) (c : Bool) : (s.skipIf c).kcnt = s.kcnt := by cases c <;> rfl
@[simp] theorem State.skipIf_fb (s : State) (c : Bool) : (s.skipIf c).fb = s.fb := by cases c <;> rfl
@[simp] theorem State.skipIf_mem (s : State) (c : Bool) : (s.skipIf c).mem = s.mem := by cases c <;> rfl
@[simp] theorem State.skipIf_status (s : State) (c : Bool) : (s.skipIf c).status = s.status := by cases c <;> rfl
@[simp] theorem State.skipIf_fault (s : State) (c : Bool) : (s.skipIf c).fault = s.fault := by cases c <;> rfl
@[simp] theorem State.skipIf_cfg (s : State) (c : Bool) : (s.skipIf c).cfg = s.cfg := by cases c <;> rfl
@[simp] theorem State.skipIf_schedule (s : State) (c : Bool) : (s.skipIf c).schedule = s.schedule := by cases c <;> rfl
@[simp] theorem State.skipIf_randIn (s : State) (c : Bool) : (s.skipIf c).randIn = s.randIn := by cases c <;> rfl
@[simp] theorem State.skipIf_draws (s : State) (c : Bool) : (s.skipIf c).draws = s.draws := by cases c <;> rfl
@[simp] theorem State.skipIf_arrivals (s : State) (c : Bool) : (s.skipIf c).arrivals = s.arrivals := by cases c <;> rfl
@[simp] theorem State.skipIf_out (s : State) (c : Bool) : (s.skipIf c).out = s.out := by cases c <;> rfl
@[simp] theorem State.consumeRand_v (s : State) : s.consumeRand.v = s.v := by
  unfold State.consumeRand; split <;> rfl
@[simp] theorem State.consumeRand_i (s : State) : s.consumeRand.i = s.i := by
  unfold State.consumeRand; split <;> rfl
@[simp] theorem State.consumeRand_pc (s : State) : s.consumeRand.pc = s.pc := by
  unfold State.consumeRand; split <;> rfl
@[simp] theorem State.consumeRand_sp (s : State) : s.consumeRand.sp = s.sp := by
  unfold State.consumeRand; split <;> rfl
@[simp] theorem State.consumeRand_stack (s : State) : s.consumeRand.stack = s.stack := by
  unfold State.consumeRand; split <;> rfl
@[simp] theorem State.consumeRand_dt (s : State) : s.consumeRand.dt = s.dt := by
  unfold State.consumeRand; split <;> rfl
@[simp] theorem State.consumeRand_key (s : State) : s.consumeRand.key = s.key := by
  unfold State.consumeRand; split <;> rfl
@[simp] theorem State.consumeRand_kcnt (s : State) : s.consumeRand.kcnt = s.kcnt := by
  unfold State.consumeRand; split <;> rfl
@[simp] theorem State.consumeRand_fb (s : State) : s.consumeRand.fb = s.fb := by
  unfold State.consumeRand; split <;> rfl
@[simp] theorem State.consumeRand_mem (s : State) : s.consumeRand.mem = s.mem := by
  unfold State.consumeRand; split <;> rfl
@[simp] theorem State.consumeRand_status (s : State) : s.consumeRand.status = s.status := by
  unfold State.consumeRand; split <;> rfl
@[simp] theorem State.consumeRand_fault (s : State) : s.consumeRand.fault = s.fault := by
  unfold State.consumeRand; split <;> rfl
@[simp] theorem State.consumeRand_cfg (s : State) : s.consumeRand.cfg = s.cfg := by
  unfold State.consumeRand; split <;> rfl
@[simp] theorem State.consumeRand_schedule (s : State) : s.consumeRand.schedule = s.schedule := by
  unfold State.consumeRand; split <;> rfl
@[simp] theorem State.consumeRand_arrivals (s : State) : s.consumeRand.arrivals = s.arrivals := by
  unfold State.consumeRand; split <;> rfl
@[simp] theorem State.consumeRand_out (s : State) : s.consumeRand.out = s.out := by
  unfold State.consumeRand; split <;> rfl
@[simp] theorem State.tick_v (s : State) : s.tick.v = s.v := by unfold State.tick; split <;> rfl
@[simp] theorem State.tick_i (s : State) : s.tick.i = s.i := by unfold State.tick; split <;> rfl
@[simp] theorem State.tick_pc (s : State) : s.tick.pc = s.pc := by unfold State.tick; split <;> rfl
@[simp] theorem State.tick_sp (s : State) : s.tick.sp = s.sp := by unfold State.tick; split <;> rfl
@[simp] theorem State.tick_stack (s : State) : s.tick.stack = s.stack := by unfold State.tick; split <;> rfl
@[simp] theorem State.tick_key (s : State) : s.tick.key = s.key := by unfold State.tick; split <;> rfl
@[simp] theorem State.tick_kcnt (s : State) : s.tick.kcnt = s.kcnt := by unfold State.tick; split <;> rfl
@[simp] theorem State.tick_fb (s : State) : s.tick.fb = s.fb := by unfold State.tick; split <;> rfl
@[simp] theorem State.tick_mem (s : State) : s.tick.mem = s.mem := by unfold State.tick; split <;> rfl
@[simp] theorem State.tick_status (s : State) : s.tick.status = s.status := by unfold State.tick; split <;> rfl
@[simp] theorem State.tick_fault (s : State) : s.tick.fault = s.fault := by unfold State.tick; split <;> rfl
@[simp] theorem State.tick_cfg (s : State) : s.tick.cfg = s.cfg := by unfold State.tick; split <;> rfl
@[simp] theorem State.tick_schedule (s : State) : s.tick.schedule = s.schedule := by unfold State.tick; split <;> rfl
@[simp] theorem State.tick_randIn (s : State) : s.tick.randIn = s.randIn := by unfold State.tick; split <;> rfl
@[simp] theorem State.tick_draws (s : State) : s.tick.draws = s.draws := by unfold State.tick; split <;> rfl
@[simp] theorem State.tick_arrivals (s : State) : s.tick.arrivals = s.arrivals := by unfold State.tick; split <;> rfl
@[simp] theorem State.tick_out (s : State) : s.tick.out = s.out := by unfold State.tick; split <;> rfl

/-- Tick counts the delay timer down to zero and no further (60_exceptions.md R509). -/
theorem State.tick_dt_toNat (s : State) : s.tick.dt.toNat = s.dt.toNat - 1 := by
  unfold State.tick
  split
  · next h => simp [h]
  · next h =>
    have h1 : s.dt.toNat ≠ 0 := fun h0 => h (BitVec.eq_of_toNat_eq (by simpa using h0))
    have h2 := s.dt.isLt
    simp only [State.setTimer_dt, BitVec.toNat_sub]
    simp
    omega

@[simp] theorem State.keyDown_v (s : State) (k : KeyCode) : (s.keyDown k).v = s.v := by
  unfold State.keyDown; split <;> rfl
@[simp] theorem State.keyDown_i (s : State) (k : KeyCode) : (s.keyDown k).i = s.i := by
  unfold State.keyDown; split <;> rfl
@[simp] theorem State.keyDown_pc (s : State) (k : KeyCode) : (s.keyDown k).pc = s.pc := by
  unfold State.keyDown; split <;> rfl
@[simp] theorem State.keyDown_sp (s : State) (k : KeyCode) : (s.keyDown k).sp = s.sp := by
  unfold State.keyDown; split <;> rfl
@[simp] theorem State.keyDown_stack (s : State) (k : KeyCode) : (s.keyDown k).stack = s.stack := by
  unfold State.keyDown; split <;> rfl
@[simp] theorem State.keyDown_dt (s : State) (k : KeyCode) : (s.keyDown k).dt = s.dt := by
  unfold State.keyDown; split <;> rfl
@[simp] theorem State.keyDown_fb (s : State) (k : KeyCode) : (s.keyDown k).fb = s.fb := by
  unfold State.keyDown; split <;> rfl
@[simp] theorem State.keyDown_mem (s : State) (k : KeyCode) : (s.keyDown k).mem = s.mem := by
  unfold State.keyDown; split <;> rfl
@[simp] theorem State.keyDown_status (s : State) (k : KeyCode) : (s.keyDown k).status = s.status := by
  unfold State.keyDown; split <;> rfl
@[simp] theorem State.keyDown_fault (s : State) (k : KeyCode) : (s.keyDown k).fault = s.fault := by
  unfold State.keyDown; split <;> rfl
@[simp] theorem State.keyDown_cfg (s : State) (k : KeyCode) : (s.keyDown k).cfg = s.cfg := by
  unfold State.keyDown; split <;> rfl
@[simp] theorem State.keyDown_schedule (s : State) (k : KeyCode) : (s.keyDown k).schedule = s.schedule := by
  unfold State.keyDown; split <;> rfl
@[simp] theorem State.keyDown_randIn (s : State) (k : KeyCode) : (s.keyDown k).randIn = s.randIn := by
  unfold State.keyDown; split <;> rfl
@[simp] theorem State.keyDown_draws (s : State) (k : KeyCode) : (s.keyDown k).draws = s.draws := by
  unfold State.keyDown; split <;> rfl
@[simp] theorem State.keyDown_arrivals (s : State) (k : KeyCode) : (s.keyDown k).arrivals = s.arrivals := by
  unfold State.keyDown; split <;> rfl
@[simp] theorem State.keyDown_out (s : State) (k : KeyCode) : (s.keyDown k).out = s.out := by
  unfold State.keyDown; split <;> rfl

/-! ## Registers after an update -/

/-- A register read after a register write: the byte written, or the old byte of another register. -/
theorem State.reg_setReg (s : State) (x r : Reg) (b : Byte) :
    (s.setReg x b).reg r = if r = x then b else s.reg r := by
  simp only [State.reg, State.setReg, Vector.get_eq_getElem, Vector.getElem_set, Fin.ext_iff, eq_comm]

@[simp] theorem State.reg_setReg_same (s : State) (x : Reg) (b : Byte) : (s.setReg x b).reg x = b := by
  simp [State.reg_setReg]

@[simp] theorem State.reg_setReg_ne (s : State) (x r : Reg) (b : Byte) (h : r ≠ x) :
    (s.setReg x b).reg r = s.reg r := by
  simp [State.reg_setReg, h]

/-- Two states with the same register file read the same. -/
theorem State.reg_congr (s t : State) (h : t.v = s.v) (r : Reg) : t.reg r = s.reg r := by
  simp [State.reg, h]

/-- Two states with the same memory and parameters read the same bytes. -/
theorem State.readByte_congr (s t : State) (hm : t.mem = s.mem) (hc : t.cfg = s.cfg) (a : Nat) :
    t.readByte a = s.readByte a := by
  simp [State.readByte, hm, hc]

@[simp] theorem State.readByte_setReg (s : State) (r : Reg) (b : Byte) (q : Nat) : (s.setReg r b).readByte q = s.readByte q :=
  State.readByte_congr _ _ (by simp) (by simp) q
@[simp] theorem State.reg_setIndex (s : State) (w : Word) (q : Reg) : (s.setIndex w).reg q = s.reg q :=
  State.reg_congr _ _ (by simp) q
@[simp] theorem State.readByte_setIndex (s : State) (w : Word) (q : Nat) : (s.setIndex w).readByte q = s.readByte q :=
  State.readByte_congr _ _ (by simp) (by simp) q
@[simp] theorem State.reg_setTimer (s : State) (b : Byte) (q : Reg) : (s.setTimer b).reg q = s.reg q :=
  State.reg_congr _ _ (by simp) q
@[simp] theorem State.readByte_setTimer (s : State) (b : Byte) (q : Nat) : (s.setTimer b).readByte q = s.readByte q :=
  State.readByte_congr _ _ (by simp) (by simp) q
@[simp] theorem State.reg_jump (s : State) (w : Word) (q : Reg) : (s.jump w).reg q = s.reg q :=
  State.reg_congr _ _ (by simp) q
@[simp] theorem State.readByte_jump (s : State) (w : Word) (q : Nat) : (s.jump w).readByte q = s.readByte q :=
  State.readByte_congr _ _ (by simp) (by simp) q
@[simp] theorem State.reg_advance (s : State) (q : Reg) : s.advance.reg q = s.reg q :=
  State.reg_congr _ _ (by simp) q
@[simp] theorem State.readByte_advance (s : State) (q : Nat) : s.advance.readByte q = s.readByte q :=
  State.readByte_congr _ _ (by simp) (by simp) q
@[simp] theorem State.reg_writeByte (s : State) (a : Nat) (b : Byte) (q : Reg) : (s.writeByte a b).reg q = s.reg q :=
  State.reg_congr _ _ (by simp) q
@[simp] theorem State.reg_emit (s : State) (e : OutEvent) (q : Reg) : (s.emit e).reg q = s.reg q :=
  State.reg_congr _ _ (by simp) q
@[simp] theorem State.readByte_emit (s : State) (e : OutEvent) (q : Nat) : (s.emit e).readByte q = s.readByte q :=
  State.readByte_congr _ _ (by simp) (by simp) q
@[simp] theorem State.reg_halt (s : State) (r : FaultRecord) (q : Reg) : (s.halt r).reg q = s.reg q :=
  State.reg_congr _ _ (by simp) q
@[simp] theorem State.readByte_halt (s : State) (r : FaultRecord) (q : Nat) : (s.halt r).readByte q = s.readByte q :=
  State.readByte_congr _ _ (by simp) (by simp) q
@[simp] theorem State.reg_push (s : State) (k : Fin 16) (w : Word) (q : Reg) : (s.push k w).reg q = s.reg q :=
  State.reg_congr _ _ (by simp) q
@[simp] theorem State.readByte_push (s : State) (k : Fin 16) (w : Word) (q : Nat) : (s.push k w).readByte q = s.readByte q :=
  State.readByte_congr _ _ (by simp) (by simp) q
@[simp] theorem State.reg_drop (s : State) (k : Fin 16) (q : Reg) : (s.drop k).reg q = s.reg q :=
  State.reg_congr _ _ (by simp) q
@[simp] theorem State.readByte_drop (s : State) (k : Fin 16) (q : Nat) : (s.drop k).readByte q = s.readByte q :=
  State.readByte_congr _ _ (by simp) (by simp) q
@[simp] theorem State.reg_countCycle (s : State) (q : Reg) : s.countCycle.reg q = s.reg q :=
  State.reg_congr _ _ (by simp) q
@[simp] theorem State.readByte_countCycle (s : State) (q : Nat) : s.countCycle.readByte q = s.readByte q :=
  State.readByte_congr _ _ (by simp) (by simp) q
@[simp] theorem State.reg_eventTaken (s : State) (q : Reg) : s.eventTaken.reg q = s.reg q :=
  State.reg_congr _ _ (by simp) q
@[simp] theorem State.readByte_eventTaken (s : State) (q : Nat) : s.eventTaken.readByte q = s.readByte q :=
  State.readByte_congr _ _ (by simp) (by simp) q
@[simp] theorem State.reg_tick (s : State) (q : Reg) : s.tick.reg q = s.reg q :=
  State.reg_congr _ _ (by simp) q
@[simp] theorem State.readByte_tick (s : State) (q : Nat) : s.tick.readByte q = s.readByte q :=
  State.readByte_congr _ _ (by simp) (by simp) q
@[simp] theorem State.reg_keyDown (s : State) (k : KeyCode) (q : Reg) : (s.keyDown k).reg q = s.reg q :=
  State.reg_congr _ _ (by simp) q
@[simp] theorem State.readByte_keyDown (s : State) (k : KeyCode) (q : Nat) :
    (s.keyDown k).readByte q = s.readByte q :=
  State.readByte_congr _ _ (by simp) (by simp) q
@[simp] theorem State.reg_keyUp (s : State) (k : KeyCode) (q : Reg) : (s.keyUp k).reg q = s.reg q :=
  State.reg_congr _ _ (by simp) q
@[simp] theorem State.readByte_keyUp (s : State) (k : KeyCode) (q : Nat) : (s.keyUp k).readByte q = s.readByte q :=
  State.readByte_congr _ _ (by simp) (by simp) q
@[simp] theorem State.reg_skipIf (s : State) (c : Bool) (q : Reg) : (s.skipIf c).reg q = s.reg q :=
  State.reg_congr _ _ (by simp) q
@[simp] theorem State.readByte_skipIf (s : State) (c : Bool) (q : Nat) : (s.skipIf c).readByte q = s.readByte q :=
  State.readByte_congr _ _ (by simp) (by simp) q
@[simp] theorem State.reg_consumeRand (s : State) (q : Reg) : s.consumeRand.reg q = s.reg q :=
  State.reg_congr _ _ (by simp) q
@[simp] theorem State.readByte_consumeRand (s : State) (q : Nat) : s.consumeRand.readByte q = s.readByte q :=
  State.readByte_congr _ _ (by simp) (by simp) q

end Sys2Proof.Machine
end

