-- ==== Sys2Proof/Laws/Ops.lean ====
section
/-! SUPPORT. One lemma for each shared operation that says all it can do: taking a fatal error, the address checks, the
block reads, stores and loads, the stack slots, the random source, the fetch and the end of a cycle. -/

namespace Sys2Proof.Machine

/-! ## Fatal errors and address checks -/

/-- Taking a fatal error answers a next state: the core halted with the record (60_exceptions.md R503). -/
theorem raise_eq (kind : ErrorKind) (op : Option Word) (addr : Option Nat) (s : State) :
    raise kind op addr s = .next (s.halt { kind := kind, pc := s.pc, op := op, addr := addr }) := rfl

/-- No address fails the check exactly when all pass it. -/
theorem firstBad_eq_none (ok : Nat → Bool) (base n : Nat) :
    firstBad ok base n = none ↔ ∀ k < n, ok (base + k) = true := by
  induction n with
  | zero => simp [firstBad]
  | succ n ih =>
    have step : (∀ k < n + 1, ok (base + k) = true) ↔ (∀ k < n, ok (base + k) = true) ∧ ok (base + n) = true :=
      Nat.forall_lt_succ_right
    rw [step, ← ih, firstBad]
    cases firstBad ok base n <;> simp

/-- The address found is the lowest that fails the check (60_exceptions.md R507). -/
theorem firstBad_eq_some (ok : Nat → Bool) (base n a : Nat) :
    firstBad ok base n = some a ↔
      ∃ k < n, a = base + k ∧ ok a = false ∧ ∀ j < k, ok (base + j) = true := by
  induction n with
  | zero => simp [firstBad]
  | succ n ih =>
    rw [firstBad]
    cases h : firstBad ok base n with
    | some b =>
      rw [h] at ih
      obtain ⟨k, hk, rfl, hbad, hlow⟩ := (firstBad_eq_some_aux ok base n b h)
      constructor
      · intro e
        obtain rfl : base + k = a := by simpa using e
        exact ⟨k, by omega, rfl, hbad, hlow⟩
      · rintro ⟨j, hj, rfl, hb, hl⟩
        rcases Nat.lt_trichotomy j k with hlt | rfl | hgt
        · rw [hlow j hlt] at hb; cases hb
        · rfl
        · rw [hl k hgt] at hbad; cases hbad
    | none =>
      have hall := (firstBad_eq_none ok base n).1 h
      by_cases hn : ok (base + n) = true
      · simp only [hn, if_true]
        constructor
        · intro e; cases e
        · rintro ⟨j, hj, rfl, hb, -⟩
          rcases Nat.lt_succ_iff_lt_or_eq.1 hj with hlt | rfl
          · rw [hall j hlt] at hb; cases hb
          · rw [hn] at hb; cases hb
      · simp only [hn]
        constructor
        · intro e
          obtain rfl : base + n = a := by simpa using e
          exact ⟨n, by omega, rfl, by simpa using hn, hall⟩
        · rintro ⟨j, hj, rfl, hb, -⟩
          rcases Nat.lt_succ_iff_lt_or_eq.1 hj with hlt | rfl
          · rw [hall j hlt] at hb; cases hb
          · rfl
where
  firstBad_eq_some_aux (ok : Nat → Bool) (base : Nat) : ∀ (n b : Nat), firstBad ok base n = some b →
      ∃ k < n, b = base + k ∧ ok b = false ∧ ∀ j < k, ok (base + j) = true
    | 0, _, h => by cases h
    | n + 1, b, h => by
      rw [firstBad] at h
      cases h' : firstBad ok base n with
      | some c =>
        rw [h'] at h
        obtain ⟨k, hk, hr⟩ := firstBad_eq_some_aux ok base n c h'
        obtain rfl : c = b := by simpa using h
        exact ⟨k, by omega, hr⟩
      | none =>
        rw [h'] at h
        by_cases hn : ok (base + n) = true
        · simp [hn] at h
        · obtain rfl : base + n = b := by simpa [hn] using h
          exact ⟨n, by omega, rfl, by simpa using hn, (firstBad_eq_none ok base n).1 h'⟩

/-- A checked access goes on when every address passes. -/
theorem checked_ok (ok : Nat → Bool) (base n : Nat) (op : Word) (s : State) (body : Result)
    (h : ∀ k < n, ok (base + k) = true) : checked ok base n op s body = body := by
  simp [checked, (firstBad_eq_none ok base n).2 h]

/-- A checked access raises at its lowest bad address. -/
theorem checked_bad (ok : Nat → Bool) (base n k : Nat) (op : Word) (s : State) (body : Result) (hk : k < n)
    (hbad : ok (base + k) = false) (hlow : ∀ j < k, ok (base + j) = true) :
    checked ok base n op s body = raise .addressRangeError (some op) (some (base + k)) s := by
  simp [checked, (firstBad_eq_some ok base n (base + k)).2 ⟨k, hk, rfl, hbad, hlow⟩]

/-- All a checked access can do: go on with every address good, or raise at the lowest bad one. -/
theorem checked_cases (ok : Nat → Bool) (base n : Nat) (op : Word) (s : State) (body : Result) :
    ((∀ k < n, ok (base + k) = true) ∧ checked ok base n op s body = body) ∨
    (∃ k < n, ok (base + k) = false ∧ (∀ j < k, ok (base + j) = true) ∧
      checked ok base n op s body = raise .addressRangeError (some op) (some (base + k)) s) := by
  cases h : firstBad ok base n with
  | none => exact .inl ⟨(firstBad_eq_none ok base n).1 h, by simp [checked, h]⟩
  | some a =>
    obtain ⟨k, hk, rfl, hbad, hlow⟩ := (firstBad_eq_some ok base n a).1 h
    exact .inr ⟨k, hk, hbad, hlow, by simp [checked, h]⟩

@[simp] theorem readable_iff (a : Nat) : readable a = true ↔ a < memSize := by simp [readable]

@[simp] theorem writable_iff (c : Config) (a : Nat) :
    writable c a = true ↔ a < memSize ∧ (c.lowWriteProtect = true → progBase ≤ a) := by
  simp only [writable, Bool.and_eq_true, Bool.or_eq_true, decide_eq_true_eq, Bool.not_eq_true']
  cases c.lowWriteProtect <;> simp

/-! ## Blocks of bytes -/

@[simp] theorem State.readBlock_length (s : State) (base n : Nat) : (s.readBlock base n).length = n := by
  induction n generalizing base with
  | zero => rfl
  | succ n ih => simp [State.readBlock, ih]

/-- The k-th byte of a block. -/
theorem State.readBlock_getElem? (s : State) (base n k : Nat) (h : k < n) :
    (s.readBlock base n)[k]? = some (s.readByte (base + k)) := by
  induction n generalizing base k with
  | zero => omega
  | succ n ih =>
    cases k with
    | zero => simp [State.readBlock]
    | succ k =>
      rw [State.readBlock, List.getElem?_cons_succ, ih (base + 1) k (by omega)]
      congr 2
      omega

/-- A block read depends only on the bytes. -/
theorem State.readBlock_congr (s t : State) (h : ∀ a, t.readByte a = s.readByte a) (base n : Nat) :
    t.readBlock base n = s.readBlock base n := by
  induction n generalizing base with
  | zero => rfl
  | succ n ih => simp [State.readBlock, ih, h]

/-- A byte read after a byte write. -/
theorem State.readByte_writeByte (s : State) (a q : Nat) (b : Byte) (hm : s.mem.wf s.cfg = true) :
    (s.writeByte a b).readByte q = if q = a then b else s.readByte q :=
  Memory.read_write s.cfg s.mem a q b hm

/-- A byte write inside the address space keeps the memory canonical. -/
theorem State.wf_writeByte (s : State) (a : Nat) (b : Byte) (ha : a < memSize) (hm : s.mem.wf s.cfg = true) :
    (s.writeByte a b).mem.wf (s.writeByte a b).cfg = true :=
  Memory.wf_write s.cfg s.mem a b ha hm

@[simp] theorem State.storeBlock_v (s : State) (base n : Nat) : (s.storeBlock base n).v = s.v := by
  induction n with
  | zero => rfl
  | succ n ih => simp [State.storeBlock, ih]
@[simp] theorem State.storeBlock_i (s : State) (base n : Nat) : (s.storeBlock base n).i = s.i := by
  induction n with
  | zero => rfl
  | succ n ih => simp [State.storeBlock, ih]
@[simp] theorem State.storeBlock_pc (s : State) (base n : Nat) : (s.storeBlock base n).pc = s.pc := by
  induction n with
  | zero => rfl
  | succ n ih => simp [State.storeBlock, ih]
@[simp] theorem State.storeBlock_sp (s : State) (base n : Nat) : (s.storeBlock base n).sp = s.sp := by
  induction n with
  | zero => rfl
  | succ n ih => simp [State.storeBlock, ih]
@[simp] theorem State.storeBlock_stack (s : State) (base n : Nat) : (s.storeBlock base n).stack = s.stack := by
  induction n with
  | zero => rfl
  | succ n ih => simp [State.storeBlock, ih]
@[simp] theorem State.storeBlock_dt (s : State) (base n : Nat) : (s.storeBlock base n).dt = s.dt := by
  induction n with
  | zero => rfl
  | succ n ih => simp [State.storeBlock, ih]
@[simp] theorem State.storeBlock_key (s : State) (base n : Nat) : (s.storeBlock base n).key = s.key := by
  induction n with
  | zero => rfl
  | succ n ih => simp [State.storeBlock, ih]
@[simp] theorem State.storeBlock_kcnt (s : State) (base n : Nat) : (s.storeBlock base n).kcnt = s.kcnt := by
  induction n with
  | zero => rfl
  | succ n ih => simp [State.storeBlock, ih]
@[simp] theorem State.storeBlock_fb (s : State) (base n : Nat) : (s.storeBlock base n).fb = s.fb := by
  induction n with
  | zero => rfl
  | succ n ih => simp [State.storeBlock, ih]
@[simp] theorem State.storeBlock_status (s : State) (base n : Nat) : (s.storeBlock base n).status = s.status := by
  induction n with
  | zero => rfl
  | succ n ih => simp [State.storeBlock, ih]
@[simp] theorem State.storeBlock_fault (s : State) (base n : Nat) : (s.storeBlock base n).fault = s.fault := by
  induction n with
  | zero => rfl
  | succ n ih => simp [State.storeBlock, ih]
@[simp] theorem State.storeBlock_cfg (s : State) (base n : Nat) : (s.storeBlock base n).cfg = s.cfg := by
  induction n with
  | zero => rfl
  | succ n ih => simp [State.storeBlock, ih]
@[simp] theorem State.storeBlock_schedule (s : State) (base n : Nat) : (s.storeBlock base n).schedule = s.schedule := by
  induction n with
  | zero => rfl
  | succ n ih => simp [State.storeBlock, ih]
@[simp] theorem State.storeBlock_randIn (s : State) (base n : Nat) : (s.storeBlock base n).randIn = s.randIn := by
  induction n with
  | zero => rfl
  | succ n ih => simp [State.storeBlock, ih]
@[simp] theorem State.storeBlock_draws (s : State) (base n : Nat) : (s.storeBlock base n).draws = s.draws := by
  induction n with
  | zero => rfl
  | succ n ih => simp [State.storeBlock, ih]
@[simp] theorem State.storeBlock_arrivals (s : State) (base n : Nat) : (s.storeBlock base n).arrivals = s.arrivals := by
  induction n with
  | zero => rfl
  | succ n ih => simp [State.storeBlock, ih]
@[simp] theorem State.storeBlock_out (s : State) (base n : Nat) : (s.storeBlock base n).out = s.out := by
  induction n with
  | zero => rfl
  | succ n ih => simp [State.storeBlock, ih]
@[simp] theorem State.loadBlock_i (s : State) (base n : Nat) : (s.loadBlock base n).i = s.i := by
  induction n with
  | zero => rfl
  | succ n ih => simp [State.loadBlock, ih]
@[simp] theorem State.loadBlock_pc (s : State) (base n : Nat) : (s.loadBlock base n).pc = s.pc := by
  induction n with
  | zero => rfl
  | succ n ih => simp [State.loadBlock, ih]
@[simp] theorem State.loadBlock_sp (s : State) (base n : Nat) : (s.loadBlock base n).sp = s.sp := by
  induction n with
  | zero => rfl
  | succ n ih => simp [State.loadBlock, ih]
@[simp] theorem State.loadBlock_stack (s : State) (base n : Nat) : (s.loadBlock base n).stack = s.stack := by
  induction n with
  | zero => rfl
  | succ n ih => simp [State.loadBlock, ih]
@[simp] theorem State.loadBlock_dt (s : State) (base n : Nat) : (s.loadBlock base n).dt = s.dt := by
  induction n with
  | zero => rfl
  | succ n ih => simp [State.loadBlock, ih]
@[simp] theorem State.loadBlock_key (s : State) (base n : Nat) : (s.loadBlock base n).key = s.key := by
  induction n with
  | zero => rfl
  | succ n ih => simp [State.loadBlock, ih]
@[simp] theorem State.loadBlock_kcnt (s : State) (base n : Nat) : (s.loadBlock base n).kcnt = s.kcnt := by
  induction n with
  | zero => rfl
  | succ n ih => simp [State.loadBlock, ih]
@[simp] theorem State.loadBlock_fb (s : State) (base n : Nat) : (s.loadBlock base n).fb = s.fb := by
  induction n with
  | zero => rfl
  | succ n ih => simp [State.loadBlock, ih]
@[simp] theorem State.loadBlock_mem (s : State) (base n : Nat) : (s.loadBlock base n).mem = s.mem := by
  induction n with
  | zero => rfl
  | succ n ih => simp [State.loadBlock, ih]
@[simp] theorem State.loadBlock_status (s : State) (base n : Nat) : (s.loadBlock base n).status = s.status := by
  induction n with
  | zero => rfl
  | succ n ih => simp [State.loadBlock, ih]
@[simp] theorem State.loadBlock_fault (s : State) (base n : Nat) : (s.loadBlock base n).fault = s.fault := by
  induction n with
  | zero => rfl
  | succ n ih => simp [State.loadBlock, ih]
@[simp] theorem State.loadBlock_cfg (s : State) (base n : Nat) : (s.loadBlock base n).cfg = s.cfg := by
  induction n with
  | zero => rfl
  | succ n ih => simp [State.loadBlock, ih]
@[simp] theorem State.loadBlock_schedule (s : State) (base n : Nat) : (s.loadBlock base n).schedule = s.schedule := by
  induction n with
  | zero => rfl
  | succ n ih => simp [State.loadBlock, ih]
@[simp] theorem State.loadBlock_randIn (s : State) (base n : Nat) : (s.loadBlock base n).randIn = s.randIn := by
  induction n with
  | zero => rfl
  | succ n ih => simp [State.loadBlock, ih]
@[simp] theorem State.loadBlock_draws (s : State) (base n : Nat) : (s.loadBlock base n).draws = s.draws := by
  induction n with
  | zero => rfl
  | succ n ih => simp [State.loadBlock, ih]
@[simp] theorem State.loadBlock_arrivals (s : State) (base n : Nat) : (s.loadBlock base n).arrivals = s.arrivals := by
  induction n with
  | zero => rfl
  | succ n ih => simp [State.loadBlock, ih]
@[simp] theorem State.loadBlock_out (s : State) (base n : Nat) : (s.loadBlock base n).out = s.out := by
  induction n with
  | zero => rfl
  | succ n ih => simp [State.loadBlock, ih]

@[simp] theorem State.reg_storeBlock (s : State) (base n : Nat) (r : Reg) : (s.storeBlock base n).reg r = s.reg r :=
  State.reg_congr _ _ (by simp) r

@[simp] theorem State.readByte_loadBlock (s : State) (base n a : Nat) :
    (s.loadBlock base n).readByte a = s.readByte a :=
  State.readByte_congr _ _ (by simp) (by simp) a

/-- A block store inside the address space keeps the memory canonical. -/
theorem State.wf_storeBlock (s : State) (base n : Nat) (h : ∀ k < n, base + k < memSize)
    (hm : s.mem.wf s.cfg = true) : (s.storeBlock base n).mem.wf s.cfg = true := by
  induction n with
  | zero => exact hm
  | succ n ih =>
    have := ih (fun k hk => h k (by omega))
    simpa [State.storeBlock] using Memory.wf_write s.cfg _ (base + n) (s.reg (regOf n)) (h n (by omega)) this

/-- The bytes after a block store: `V[k]` at `base + k`, every other byte as before (46_misc.md R387). -/
theorem State.readByte_storeBlock (s : State) (base n a : Nat) (h : ∀ k < n, base + k < memSize)
    (hm : s.mem.wf s.cfg = true) :
    (s.storeBlock base n).readByte a =
      if base ≤ a ∧ a < base + n then s.reg (regOf (a - base)) else s.readByte a := by
  induction n with
  | zero =>
    simp [State.storeBlock]
  | succ n ih =>
    have hlow := fun k hk => h k (Nat.lt_succ_of_lt hk)
    have hw : (s.storeBlock base n).mem.wf (s.storeBlock base n).cfg = true := by
      simpa using State.wf_storeBlock s base n hlow hm
    rw [State.storeBlock, State.readByte_writeByte _ _ _ _ hw, ih hlow]
    by_cases ha : a = base + n
    · subst ha
      simp
    · by_cases h1 : base ≤ a ∧ a < base + n
      · have h2 : base ≤ a ∧ a < base + (n + 1) := by omega
        simp [ha, h1, h2]
      · have h2 : ¬ (base ≤ a ∧ a < base + (n + 1)) := by omega
        simp [ha, h1, h2]

/-- The registers after a block load: the byte at `base + k` in `V[k]`, every other register as before
(46_misc.md R388). -/
theorem State.reg_loadBlock (s : State) (base n : Nat) (r : Reg) (h : n ≤ 16) :
    (s.loadBlock base n).reg r = if r.val < n then s.readByte (base + r.val) else s.reg r := by
  induction n with
  | zero => simp [State.loadBlock]
  | succ n ih =>
    rw [State.loadBlock, State.reg_setReg, ih (by omega)]
    by_cases hr : r.val = n
    · have e : r = regOf n := Fin.ext (by simp only [regOf]; omega)
      rw [if_pos e, if_pos (by omega), hr]
    · have h1 : r ≠ regOf n := by
        intro e
        have := congrArg Fin.val e
        simp only [regOf] at this
        omega
      by_cases h2 : r.val < n
      · have h3 : r.val < n + 1 := by omega
        simp [h1, h2, h3]
      · have h3 : ¬ r.val < n + 1 := by omega
        simp [h1, h2, h3]

/-! ## The stack -/

/-- A push is possible exactly below the last entry; the new index is one more. -/
theorem nextSlot_eq_some (sp : Option (Fin 16)) (k : Fin 16) :
    nextSlot sp = some k ↔ (sp = none ∧ k.val = 0) ∨ ∃ j, sp = some j ∧ k.val = j.val + 1 := by
  cases sp with
  | none =>
    simp only [nextSlot, Option.some.injEq, Fin.ext_iff, true_and, reduceCtorEq, false_and, exists_false, or_false]
    exact eq_comm
  | some j =>
    have hk := k.isLt
    by_cases h : j.val + 1 < 16
    · simp only [nextSlot, h, dite_true, Option.some.injEq, Fin.ext_iff, reduceCtorEq, false_and, false_or]
      constructor
      · intro e; exact ⟨j, rfl, e.symm⟩
      · rintro ⟨i, e, e'⟩; omega
    · simp only [nextSlot, h, dite_false, reduceCtorEq, false_and, false_or, false_iff]
      rintro ⟨i, e, e'⟩
      obtain rfl : j = i := by simpa using e
      omega

/-- No push is possible exactly when SP = 15. -/
theorem nextSlot_eq_none (sp : Option (Fin 16)) : nextSlot sp = none ↔ sp = some 15 := by
  revert sp
  decide

/-- The entry below the one a push took is the SP from before it. -/
theorem slotBelow_nextSlot (sp : Option (Fin 16)) (k : Fin 16) (h : nextSlot sp = some k) : slotBelow k = sp := by
  rcases (nextSlot_eq_some sp k).1 h with ⟨rfl, hk⟩ | ⟨j, rfl, hk⟩
  · simp [slotBelow, hk]
  · simp [slotBelow, hk]

/-! ## The random source -/

/-- A supplied byte is drawn and used up. -/
theorem State.rand_supplied (s : State) (b : Byte) (bs : List Byte) (h : s.randIn = b :: bs) :
    s.randByte = b ∧ s.consumeRand.randIn = bs ∧ s.consumeRand.draws = s.draws := by
  simp [State.randByte, State.consumeRand, h]

/-- With no supplied byte the draw is the next free value. -/
theorem State.rand_free (s : State) (h : s.randIn = []) :
    s.randByte = Config.freeRand s.draws ∧ s.consumeRand.randIn = [] ∧ s.consumeRand.draws = s.draws + 1 := by
  simp [State.randByte, State.consumeRand, h]

/-! ## The fetch -/

/-- The two fetched bytes. -/
theorem State.fetchBytes_eq (s : State) :
    s.fetchBytes = [s.readByte s.pc.toNat, s.readByte (s.pc.toNat + 1)] := rfl

/-- Decoding the fetched bytes is decoding the fetched word, with nothing left over. -/
theorem State.decode_fetchBytes (s : State) :
    decode s.fetchBytes =
      match decodeWord s.fetchWord with
      | .ok i => .ok (i, [])
      | .error e => .error e := rfl

/-! ## The end of a cycle -/

/-- The end of a cycle whose instruction committed: the debounce counter moves. -/
theorem endCycle_running (t : State) (h : t.status = .running) : endCycle (.next t) = .next t.countCycle := by
  simp [endCycle, h]

/-- The end of a cycle whose instruction raised: nothing more happens. -/
theorem endCycle_halted (t : State) (h : t.status = .halted) : endCycle (.next t) = .next t := by
  simp [endCycle, h]

end Sys2Proof.Machine
end

