-- ==== Sys2Proof/Laws/PerInstr.lean ====
section
/-! SUPPORT. The family OpcodeRow: the word of an instruction lies in its own row of the opcode table
(30_encoding.md R144, opcode_table.json), one lemma a constructor. -/

namespace Sys2Proof.Laws.OpcodeRow

/-- The number of an instruction's row in opcode_table.json, from 0. -/
def rowIndex : Instr → Nat
  | .cls => 0
  | .ret => 1
  | .jp _ => 2
  | .call _ => 3
  | .seImm _ _ => 4
  | .sneImm _ _ => 5
  | .seReg _ _ => 6
  | .ldImm _ _ => 7
  | .addImm _ _ => 8
  | .ldReg _ _ => 9
  | .orReg _ _ => 10
  | .andReg _ _ => 11
  | .xorReg _ _ => 12
  | .addReg _ _ => 13
  | .subReg _ _ => 14
  | .shr _ _ => 15
  | .subn _ _ => 16
  | .shl _ _ => 17
  | .sneReg _ _ => 18
  | .ldI _ => 19
  | .jpV0 _ => 20
  | .rnd _ _ => 21
  | .drw _ _ _ => 22
  | .skp _ => 23
  | .sknp _ => 24
  | .ldVDt _ => 25
  | .ldVKey _ => 26
  | .ldDtV _ => 27
  | .beep _ => 28
  | .addI _ => 29
  | .ldGlyph _ => 30
  | .bcd _ => 31
  | .storeRegs _ => 32
  | .loadRegs _ => 33

/-- The encoded word of a well-formed instruction lies in the instruction's row. -/
def Statement (i : Instr) : Prop :=
  i.wellFormed = true → ∃ r, opcodeTable[rowIndex i]? = some r ∧ r.covers (encode i) = true

theorem cls : Statement .cls := fun _ => ⟨_, rfl, by decide⟩

theorem ret : Statement .ret := fun _ => ⟨_, rfl, by decide⟩

theorem jp (nnn : Addr12) : Statement (.jp nnn) := fun _ =>
  ⟨_, rfl, (covers_F000 _ _).2 (by
    have := nnn.isLt
    simp only [encode, packNNN_toNat 0x1 nnn (by decide), BitVec.reduceToNat]; omega)⟩

theorem call (nnn : Addr12) : Statement (.call nnn) := fun _ =>
  ⟨_, rfl, (covers_F000 _ _).2 (by
    have := nnn.isLt
    simp only [encode, packNNN_toNat 0x2 nnn (by decide), BitVec.reduceToNat]; omega)⟩

theorem seImm (x : Reg) (nn : Byte) : Statement (.seImm x nn) := fun _ =>
  ⟨_, rfl, (covers_F000 _ _).2 (by
    have := nn.isLt
    simp only [encode, packXNN_toNat 0x3 x nn (by decide), BitVec.reduceToNat]; omega)⟩

theorem sneImm (x : Reg) (nn : Byte) : Statement (.sneImm x nn) := fun _ =>
  ⟨_, rfl, (covers_F000 _ _).2 (by
    have := nn.isLt
    simp only [encode, packXNN_toNat 0x4 x nn (by decide), BitVec.reduceToNat]; omega)⟩

theorem seReg (x y : Reg) : Statement (.seReg x y) := fun _ =>
  ⟨_, rfl, (covers_F00F _ _).2 (by
    simp only [encode, packXYN_toNat 0x5 x y 0x0 (by decide) (by decide), BitVec.reduceToNat]; omega)⟩

theorem ldImm (x : Reg) (nn : Byte) : Statement (.ldImm x nn) := fun _ =>
  ⟨_, rfl, (covers_F000 _ _).2 (by
    have := nn.isLt
    simp only [encode, packXNN_toNat 0x6 x nn (by decide), BitVec.reduceToNat]; omega)⟩

theorem addImm (x : Reg) (nn : Byte) : Statement (.addImm x nn) := fun _ =>
  ⟨_, rfl, (covers_F000 _ _).2 (by
    have := nn.isLt
    simp only [encode, packXNN_toNat 0x7 x nn (by decide), BitVec.reduceToNat]; omega)⟩

theorem ldReg (x y : Reg) : Statement (.ldReg x y) := fun _ =>
  ⟨_, rfl, (covers_F00F _ _).2 (by
    simp only [encode, packXYN_toNat 0x8 x y 0x0 (by decide) (by decide), BitVec.reduceToNat]; omega)⟩

theorem orReg (x y : Reg) : Statement (.orReg x y) := fun _ =>
  ⟨_, rfl, (covers_F00F _ _).2 (by
    simp only [encode, packXYN_toNat 0x8 x y 0x1 (by decide) (by decide), BitVec.reduceToNat]; omega)⟩

theorem andReg (x y : Reg) : Statement (.andReg x y) := fun _ =>
  ⟨_, rfl, (covers_F00F _ _).2 (by
    simp only [encode, packXYN_toNat 0x8 x y 0x2 (by decide) (by decide), BitVec.reduceToNat]; omega)⟩

theorem xorReg (x y : Reg) : Statement (.xorReg x y) := fun _ =>
  ⟨_, rfl, (covers_F00F _ _).2 (by
    simp only [encode, packXYN_toNat 0x8 x y 0x3 (by decide) (by decide), BitVec.reduceToNat]; omega)⟩

theorem addReg (x y : Reg) : Statement (.addReg x y) := fun _ =>
  ⟨_, rfl, (covers_F00F _ _).2 (by
    simp only [encode, packXYN_toNat 0x8 x y 0x4 (by decide) (by decide), BitVec.reduceToNat]; omega)⟩

theorem subReg (x y : Reg) : Statement (.subReg x y) := fun _ =>
  ⟨_, rfl, (covers_F00F _ _).2 (by
    simp only [encode, packXYN_toNat 0x8 x y 0x5 (by decide) (by decide), BitVec.reduceToNat]; omega)⟩

theorem shr (x y : Reg) : Statement (.shr x y) := fun _ =>
  ⟨_, rfl, (covers_F00F _ _).2 (by
    simp only [encode, packXYN_toNat 0x8 x y 0x6 (by decide) (by decide), BitVec.reduceToNat]; omega)⟩

theorem subn (x y : Reg) : Statement (.subn x y) := fun _ =>
  ⟨_, rfl, (covers_F00F _ _).2 (by
    simp only [encode, packXYN_toNat 0x8 x y 0x7 (by decide) (by decide), BitVec.reduceToNat]; omega)⟩

theorem shl (x y : Reg) : Statement (.shl x y) := fun _ =>
  ⟨_, rfl, (covers_F00F _ _).2 (by
    simp only [encode, packXYN_toNat 0x8 x y 0xE (by decide) (by decide), BitVec.reduceToNat]; omega)⟩

theorem sneReg (x y : Reg) : Statement (.sneReg x y) := fun _ =>
  ⟨_, rfl, (covers_F00F _ _).2 (by
    simp only [encode, packXYN_toNat 0x9 x y 0x0 (by decide) (by decide), BitVec.reduceToNat]; omega)⟩

theorem ldI (nnn : Addr12) : Statement (.ldI nnn) := fun _ =>
  ⟨_, rfl, (covers_F000 _ _).2 (by
    have := nnn.isLt
    simp only [encode, packNNN_toNat 0xA nnn (by decide), BitVec.reduceToNat]; omega)⟩

theorem jpV0 (nnn : Addr12) : Statement (.jpV0 nnn) := fun _ =>
  ⟨_, rfl, (covers_F000 _ _).2 (by
    have := nnn.isLt
    simp only [encode, packNNN_toNat 0xB nnn (by decide), BitVec.reduceToNat]; omega)⟩

theorem rnd (x : Reg) (nn : Byte) : Statement (.rnd x nn) := fun _ =>
  ⟨_, rfl, (covers_F000 _ _).2 (by
    have := nn.isLt
    simp only [encode, packXNN_toNat 0xC x nn (by decide), BitVec.reduceToNat]; omega)⟩

theorem drw (x y : Reg) (n : Nat) : Statement (.drw x y n) := fun h =>
  ⟨_, rfl, (covers_F000 _ _).2 (by
    have hn : n < 16 := by simpa [Instr.wellFormed] using h
    simp only [encode, packXYN_toNat 0xD x y n (by decide) hn, BitVec.reduceToNat]; omega)⟩

theorem skp (x : Reg) : Statement (.skp x) := fun _ =>
  ⟨_, rfl, (covers_F0FF _ _).2 (by
    simp only [encode, packXNN_toNat 0xE x _ (by decide), BitVec.reduceToNat]; omega)⟩

theorem sknp (x : Reg) : Statement (.sknp x) := fun _ =>
  ⟨_, rfl, (covers_F0FF _ _).2 (by
    simp only [encode, packXNN_toNat 0xE x _ (by decide), BitVec.reduceToNat]; omega)⟩

theorem ldVDt (x : Reg) : Statement (.ldVDt x) := fun _ =>
  ⟨_, rfl, (covers_F0FF _ _).2 (by
    simp only [encode, packXNN_toNat 0xF x _ (by decide), BitVec.reduceToNat]; omega)⟩

theorem ldVKey (x : Reg) : Statement (.ldVKey x) := fun _ =>
  ⟨_, rfl, (covers_F0FF _ _).2 (by
    simp only [encode, packXNN_toNat 0xF x _ (by decide), BitVec.reduceToNat]; omega)⟩

theorem ldDtV (x : Reg) : Statement (.ldDtV x) := fun _ =>
  ⟨_, rfl, (covers_F0FF _ _).2 (by
    simp only [encode, packXNN_toNat 0xF x _ (by decide), BitVec.reduceToNat]; omega)⟩

theorem beep (x : Reg) : Statement (.beep x) := fun _ =>
  ⟨_, rfl, (covers_F0FF _ _).2 (by
    simp only [encode, packXNN_toNat 0xF x _ (by decide), BitVec.reduceToNat]; omega)⟩

theorem addI (x : Reg) : Statement (.addI x) := fun _ =>
  ⟨_, rfl, (covers_F0FF _ _).2 (by
    simp only [encode, packXNN_toNat 0xF x _ (by decide), BitVec.reduceToNat]; omega)⟩

theorem ldGlyph (x : Reg) : Statement (.ldGlyph x) := fun _ =>
  ⟨_, rfl, (covers_F0FF _ _).2 (by
    simp only [encode, packXNN_toNat 0xF x _ (by decide), BitVec.reduceToNat]; omega)⟩

theorem bcd (x : Reg) : Statement (.bcd x) := fun _ =>
  ⟨_, rfl, (covers_F0FF _ _).2 (by
    simp only [encode, packXNN_toNat 0xF x _ (by decide), BitVec.reduceToNat]; omega)⟩

theorem storeRegs (x : Reg) : Statement (.storeRegs x) := fun _ =>
  ⟨_, rfl, (covers_F0FF _ _).2 (by
    simp only [encode, packXNN_toNat 0xF x _ (by decide), BitVec.reduceToNat]; omega)⟩

theorem loadRegs (x : Reg) : Statement (.loadRegs x) := fun _ =>
  ⟨_, rfl, (covers_F0FF _ _).2 (by
    simp only [encode, packXNN_toNat 0xF x _ (by decide), BitVec.reduceToNat]; omega)⟩

end Sys2Proof.Laws.OpcodeRow
end

