-- ==== Sys2Proof/Laws/Step.lean ====
section
/-! SUPPORT. The inversion of a step: every way it can answer a next state, said once, with the guard of each. -/

namespace Sys2Proof.Machine

/-- The end of a cycle answers a next state only from one: counted when the core still runs, as it is when not. -/
theorem endCycle_cases (r : Result) (t : State) (h : endCycle r = .next t) :
    ∃ u, r = .next u ∧ ((u.status = .running ∧ t = u.countCycle) ∨ (u.status = .halted ∧ t = u)) := by
  cases r with
  | next u =>
    refine ⟨u, rfl, ?_⟩
    cases hu : u.status with
    | running => exact .inl ⟨rfl, by simpa [endCycle, hu] using h.symm⟩
    | halted => exact .inr ⟨rfl, by simpa [endCycle, hu] using h.symm⟩
  | fault f => cases h
  | refused q => cases h

/-- Delivering an event to a halted core changes nothing. -/
theorem deliver_halted (e : HostEvent) (s : State) (h : s.status = .halted) : deliver e s = .next s := by
  cases e <;> simp [deliver, runCycle, State.whileRunning, h]

/-- Everything a step can do: nothing but take the event (a halted core); a Tick, a KeyDown or a KeyUp on a running
core; a Cycle that raises at the fetch range or at the decode; or a Cycle that runs the decoded instruction. -/
theorem step_cases (s t : State) (h : step s = .next t) :
    (s.status = .halted ∧ t = s.eventTaken) ∨
    (s.status = .running ∧ s.nextEvent = .tick ∧ t = s.eventTaken.tick) ∨
    (∃ k, s.status = .running ∧ s.nextEvent = .keyDown k ∧ t = s.eventTaken.keyDown k) ∨
    (∃ k, s.status = .running ∧ s.nextEvent = .keyUp k ∧ t = s.eventTaken.keyUp k) ∨
    (s.status = .running ∧ s.nextEvent = .cycle ∧ s.fetchable = false ∧
      t = s.eventTaken.halt { kind := .addressRangeError, pc := s.pc, op := none, addr := some s.pc.toNat }) ∨
    (∃ e, s.status = .running ∧ s.nextEvent = .cycle ∧ s.fetchable = true ∧ decode s.fetchBytes = .error e ∧
      t = s.eventTaken.halt { kind := .decodeError, pc := s.pc, op := some s.fetchWord, addr := none }) ∨
    (∃ i rest u, s.status = .running ∧ s.nextEvent = .cycle ∧ s.fetchable = true ∧
      decode s.fetchBytes = .ok (i, rest) ∧ exec i s.eventTaken = .next u ∧
      ((u.status = .running ∧ t = u.countCycle) ∨ (u.status = .halted ∧ t = u))) := by
  unfold step stepEvent at h
  cases hs : s.status with
  | halted =>
    rw [deliver_halted _ _ (by simpa using hs)] at h
    exact .inl ⟨rfl, by simpa using h.symm⟩
  | running =>
    refine .inr ?_
    have hs' : s.eventTaken.status = .running := by simpa using hs
    have hf' : s.eventTaken.fetchable = s.fetchable := rfl
    have hb' : s.eventTaken.fetchBytes = s.fetchBytes := rfl
    cases he : s.nextEvent with
    | tick => exact .inl ⟨rfl, rfl, by simpa [he, deliver, State.whileRunning, hs] using h.symm⟩
    | keyDown k =>
      exact .inr (.inl ⟨k, rfl, rfl, by simpa [he, deliver, State.whileRunning, hs] using h.symm⟩)
    | keyUp k =>
      exact .inr (.inr (.inl ⟨k, rfl, rfl, by simpa [he, deliver, State.whileRunning, hs] using h.symm⟩))
    | cycle =>
      refine .inr (.inr (.inr ?_))
      simp only [he, deliver, runCycle, hs', hf', hb', reduceCtorEq, if_false] at h
      cases hf : s.fetchable with
      | false =>
        simp only [hf, Bool.false_eq_true, if_false] at h
        cases h
        exact .inl ⟨rfl, rfl, rfl, rfl⟩
      | true =>
        simp only [hf, if_true] at h
        cases hd : decode s.fetchBytes with
        | error e =>
          simp only [hd] at h
          cases h
          exact .inr (.inl ⟨e, rfl, rfl, rfl, rfl, rfl⟩)
        | ok p =>
          simp only [hd] at h
          obtain ⟨u, hu, hc⟩ := endCycle_cases _ _ h
          exact .inr (.inr ⟨p.1, p.2, u, rfl, rfl, rfl, rfl, hu, hc⟩)

end Sys2Proof.Machine
end

