-- ==== Sys2Proof/Tests/Slice0.lean ====
section
/-! SUPPORT. Tests of one step each, and a witness for every statement that has hypotheses. Every expected result is a
vector of spec/95_test_vectors.md (named S or V in the docstring) or is worked out by hand from the rule cited; none was
read off the model. -/

namespace Sys2Proof.Tests

open Sys2Proof.Machine

/-! ## Well-formed terms -/

/-- The one check refuses a row count that does not fit N's four bits, and takes the largest that does (R141). -/
theorem test_wellFormed_rejects_row_count_16 :
    (Instr.drw 0 0 16).wellFormed = false ∧ (Instr.drw 0 0 15).wellFormed = true := by decide

/-! ## Decoding: every constructor from a word written out bit by bit (opcode_table.json, R142, R144) -/

theorem test_decode_system :
    decodeWord 0b0000000011100000#16 = .ok .cls ∧
    decodeWord 0b0000000011101110#16 = .ok .ret := by decide

theorem test_decode_address_forms :
    decodeWord 0b0001101010111100#16 = .ok (.jp 0xABC) ∧
    decodeWord 0b0010101010111100#16 = .ok (.call 0xABC) ∧
    decodeWord 0b1010101010111100#16 = .ok (.ldI 0xABC) ∧
    decodeWord 0b1011101010111100#16 = .ok (.jpV0 0xABC) := by decide

theorem test_decode_immediate_forms :
    decodeWord 0b0011000111111110#16 = .ok (.seImm 1 0xFE) ∧
    decodeWord 0b0100000111111110#16 = .ok (.sneImm 1 0xFE) ∧
    decodeWord 0b0110000111111110#16 = .ok (.ldImm 1 0xFE) ∧
    decodeWord 0b0111000111111110#16 = .ok (.addImm 1 0xFE) ∧
    decodeWord 0b1100000111111110#16 = .ok (.rnd 1 0xFE) := by decide

theorem test_decode_register_skips_and_draw :
    decodeWord 0b0101000100100000#16 = .ok (.seReg 1 2) ∧
    decodeWord 0b1001000100100000#16 = .ok (.sneReg 1 2) ∧
    decodeWord 0b1101000100101111#16 = .ok (.drw 1 2 15) := by decide

theorem test_decode_alu :
    decodeWord 0b1000000100100000#16 = .ok (.ldReg 1 2) ∧
    decodeWord 0b1000000100100001#16 = .ok (.orReg 1 2) ∧
    decodeWord 0b1000000100100010#16 = .ok (.andReg 1 2) ∧
    decodeWord 0b1000000100100011#16 = .ok (.xorReg 1 2) ∧
    decodeWord 0b1000000100100100#16 = .ok (.addReg 1 2) ∧
    decodeWord 0b1000000100100101#16 = .ok (.subReg 1 2) ∧
    decodeWord 0b1000000100100110#16 = .ok (.shr 1 2) ∧
    decodeWord 0b1000000100100111#16 = .ok (.subn 1 2) ∧
    decodeWord 0b1000000100101110#16 = .ok (.shl 1 2) := by decide

theorem test_decode_key_skips :
    decodeWord 0b1110110010011110#16 = .ok (.skp 12) ∧
    decodeWord 0b1110110010100001#16 = .ok (.sknp 12) := by decide

theorem test_decode_misc :
    decodeWord 0b1111110000000111#16 = .ok (.ldVDt 12) ∧
    decodeWord 0b1111110000001010#16 = .ok (.ldVKey 12) ∧
    decodeWord 0b1111110000010101#16 = .ok (.ldDtV 12) ∧
    decodeWord 0b1111110000011000#16 = .ok (.beep 12) ∧
    decodeWord 0b1111110000011110#16 = .ok (.addI 12) ∧
    decodeWord 0b1111110000101001#16 = .ok (.ldGlyph 12) ∧
    decodeWord 0b1111110000110011#16 = .ok (.bcd 12) ∧
    decodeWord 0b1111110001010101#16 = .ok (.storeRegs 12) ∧
    decodeWord 0b1111110001100101#16 = .ok (.loadRegs 12) := by decide

/-- One illegal word for each bullet of R145, and too few bytes. -/
theorem test_decode_rejects :
    decodeWord 0x0123 = .error .illegalSystem ∧ decodeWord 0x5121 = .error .illegalSkipEq ∧
    decodeWord 0x812F = .error .illegalAlu ∧ decodeWord 0x9121 = .error .illegalSkipNe ∧
    decodeWord 0xE2FF = .error .illegalKey ∧ decodeWord 0xF000 = .error .illegalMisc ∧
    decode [0x12] = .error .truncated := by decide

/-- The first byte is the high byte (R105), and `decodeTableWord` lays a table word out so. -/
theorem test_decode_is_bigEndian :
    decode [0x12, 0x34, 0x56] = .ok (.jp 0x234, [0x56]) ∧ decodeTableWord 16 0x1234 = some (.jp 0x234) := by decide

/-! ## A small machine -/

/-- The defaults of the spec, with a debounce window of three cycles, as in V131. -/
def testConfig : Config := { window := 3, lowWriteProtect := true, font := defaultFont, memFill := 0 }

/-- The machine of `testConfig` after reset, with one Cycle scheduled. -/
def base : State := { State.resetWith testConfig defaultResetValues with schedule := [.cycle] }

/-- The same machine with some registers set. -/
def withRegs (l : List (Reg × Byte)) : State := l.foldl (fun s p => s.setReg p.1 p.2) base

/-- A machine with bytes placed from an address. -/
def withBytes (s : State) (a : Nat) (bs : List Byte) : State := { s with mem := Memory.place s.cfg s.mem a bs }

/-- A machine with one pixel set, column first as in the vectors. -/
def withPixel (s : State) (x y : Nat) : State := { s with fb := s.fb.setPixel (rowOf y) (colOf x) true }

/-- The pixel (x, y). -/
def pixelAt (s : State) (x y : Nat) : Bool := s.fb.pixel (rowOf y) (colOf x)

/-- How many pixels are active. -/
def litPixels (s : State) : Nat := (s.fb.toList.map fun row => row.toList.countP fun b => b).sum

/-- One step that fetches and runs a word answers a next state with a property. -/
def after (s : State) (w : Nat) (p : State → Bool) : Bool :=
  match step (s.withFetchWord 16 w) with
  | .next t => p t
  | _ => false

/-- One step answers a next state with a property. -/
def afterStep (s : State) (p : State → Bool) : Bool :=
  match step s with
  | .next t => p t
  | _ => false

/-- One instruction answers a next state with a property. -/
def afterExec (i : Instr) (s : State) (p : State → Bool) : Bool :=
  match exec i s with
  | .next t => p t
  | _ => false

/-- The record of a fatal error, the core halted and one Fault event sent. -/
def faulted (kind : ErrorKind) (pc : Word) (op : Option Word) (addr : Option Nat) (t : State) : Bool :=
  decide (t.status = .halted) && decide (t.fault = some ⟨kind, pc, op, addr⟩) &&
    decide (t.out = [.fault ⟨kind, pc, op, addr⟩])

/-! ## Reset -/

/-- Font bytes of glyphs 0, 1 and F, the fill, and the canonical memory (R66, R103). -/
theorem test_reset_memory :
    base.readByte 0 = 0xF0 ∧ base.readByte 1 = 0x90 ∧ base.readByte 5 = 0x20 ∧ base.readByte 79 = 0x80 ∧
    base.readByte 80 = 0 ∧ base.readByte 0x200 = 0 ∧ base.mem.wf base.cfg = true := by decide

/-- An image of two bytes stands at 0x200 (R104, R601). -/
theorem test_boot_places_image :
    (State.boot testConfig defaultResetValues [0x12, 0x00] [] []).any
      (fun s => decide (s.readByte 0x200 = 0x12 ∧ s.readByte 0x201 = 0x00 ∧ s.mem = [(0x200, 0x12)])) = true := by decide

/-- Writing what an unlisted address reads as removes the entry, so the form stays canonical. -/
theorem test_memory_write_is_canonical :
    Memory.write testConfig [(0x300, 7), (0x400, 8)] 0x300 0 = [(0x400, 8)] ∧
    Memory.write testConfig [(0x300, 7), (0x400, 8)] 0x350 9 = [(0x300, 7), (0x350, 9), (0x400, 8)] := by decide

/-! ## System, jump, call -/

/-- V1. -/
theorem test_cls : after (withPixel base 3 4) 0x00E0 (fun t => litPixels t == 0 && t.pc == 0x202 && t.out == []) = true := by
  decide

/-- V2: SP = 0, stack[0] = 0x204, pc0 = 0x300. -/
theorem test_ret :
    after { base with pc := 0x300, sp := some 0, stack := base.stack.set 0 0x204 } 0x00EE
      (fun t => t.pc == 0x204 && t.sp == none && t.stack.get 0 == 0x204) = true := by decide

/-- V3. -/
theorem test_ret_underflow : after base 0x00EE (faulted .stackUnderflow 0x200 (some 0x00EE) none) = true := by decide

/-- V4, and V5's jump below the program area, which is legal until the fetch. -/
theorem test_jp :
    after base 0x1234 (fun t => t.pc == 0x234) = true ∧
    after base 0x1100 (fun t => t.pc == 0x100 && t.status == .running) = true := by decide

/-- V7 and V9 (the return address of a call at 0xFFE is 0x1000). -/
theorem test_call :
    after base 0x2300 (fun t => t.sp == some 0 && t.stack.get 0 == 0x202 && t.pc == 0x300) = true ∧
    after { base with pc := 0xFFE } 0x2300
      (fun t => t.sp == some 0 && t.stack.get 0 == 0x1000 && t.pc == 0x300) = true := by decide

/-- V8. -/
theorem test_call_overflow :
    after { base with sp := some 15 } 0x2300
      (fun t => faulted .stackOverflow 0x200 (some 0x2300) none t && t.sp == some 15) = true := by decide

/-- V10 and V11. -/
theorem test_illegal_words :
    after base 0x0123 (faulted .decodeError 0x200 (some 0x0123) none) = true ∧
    after base 0x0000 (faulted .decodeError 0x200 (some 0x0000) none) = true := by decide

/-- V5 and V6, the cycle after the jump; nothing counts for the debounce window. -/
theorem test_fetch_range :
    afterStep { base with pc := 0x100, kcnt := 1 }
      (fun t => faulted .addressRangeError 0x100 none (some 0x100) t && t.kcnt == 1) = true ∧
    afterStep { base with pc := 0xFFF } (faulted .addressRangeError 0xFFF none (some 0xFFF)) = true := by decide

/-! ## Skips and immediates -/

/-- V20, V21. -/
theorem test_seImm :
    after (withRegs [(3, 0x10)]) 0x3310 (fun t => t.pc == 0x204) = true ∧
    after (withRegs [(3, 0x11)]) 0x3310 (fun t => t.pc == 0x202) = true := by decide

/-- V22: a taken skip at 0xFFC leaves pc = 0x1000. -/
theorem test_skip_past_the_end :
    after { withRegs [(3, 0x10)] with pc := 0xFFC } 0x3310 (fun t => t.pc == 0x1000 && t.status == .running) = true := by
  decide

/-- V24, V25. -/
theorem test_sneImm :
    after (withRegs [(3, 0x11)]) 0x4310 (fun t => t.pc == 0x204) = true ∧
    after (withRegs [(3, 0x10)]) 0x4310 (fun t => t.pc == 0x202) = true := by decide

/-- V26, V27. -/
theorem test_seReg :
    after (withRegs [(1, 7), (2, 7)]) 0x5120 (fun t => t.pc == 0x204) = true ∧
    after (withRegs [(1, 7), (2, 8)]) 0x5120 (fun t => t.pc == 0x202) = true := by decide

/-- V30. -/
theorem test_ldImm : after base 0x6A42 (fun t => t.reg 10 == 0x42 && t.pc == 0x202) = true := by decide

/-- V31, V32. -/
theorem test_addImm :
    after (withRegs [(0, 0xFF), (15, 0x55)]) 0x7001 (fun t => t.reg 0 == 0 && t.reg 15 == 0x55) = true ∧
    after (withRegs [(15, 0xFF)]) 0x7F01 (fun t => t.reg 15 == 0) = true := by decide

/-! ## ALU -/

/-- V40. -/
theorem test_ldReg : after (withRegs [(2, 0x33)]) 0x8120 (fun t => t.reg 1 == 0x33 && t.reg 2 == 0x33) = true := by decide

/-- V41. -/
theorem test_orReg :
    after (withRegs [(1, 0x0F), (2, 0xF0), (15, 9)]) 0x8121 (fun t => t.reg 1 == 0xFF && t.reg 15 == 9) = true := by decide

/-- V42. -/
theorem test_andReg : after (withRegs [(1, 0x3C), (2, 0x0F)]) 0x8122 (fun t => t.reg 1 == 0x0C) = true := by decide

/-- V43, V44. -/
theorem test_xorReg :
    after (withRegs [(1, 0xFF), (2, 0x0F)]) 0x8123 (fun t => t.reg 1 == 0xF0) = true ∧
    after (withRegs [(1, 0x5A)]) 0x8113 (fun t => t.reg 1 == 0) = true := by decide

/-- V45, V46. -/
theorem test_addReg :
    after (withRegs [(1, 0xFF), (2, 1)]) 0x8124 (fun t => t.reg 1 == 0 && t.reg 15 == 1) = true ∧
    after (withRegs [(1, 1), (2, 2), (15, 1)]) 0x8124 (fun t => t.reg 1 == 3 && t.reg 15 == 0) = true := by decide

/-- V47, V48: VF as a source and as the destination. -/
theorem test_addReg_flag_register :
    after (withRegs [(15, 0xFF), (1, 1)]) 0x8F14 (fun t => t.reg 15 == 1) = true ∧
    after (withRegs [(0, 1), (15, 0xFF)]) 0x80F4 (fun t => t.reg 0 == 0 && t.reg 15 == 1) = true := by decide

/-- V50, V51. -/
theorem test_subReg :
    after (withRegs [(1, 1), (2, 2)]) 0x8125 (fun t => t.reg 1 == 0xFF && t.reg 15 == 0) = true ∧
    after (withRegs [(1, 5), (2, 3)]) 0x8125 (fun t => t.reg 1 == 2 && t.reg 15 == 1) = true := by decide

/-- V52, V53: equal operands give 0, and X = F. -/
theorem test_subReg_equal_and_flag_register :
    after (withRegs [(1, 7), (2, 7), (15, 1)]) 0x8125 (fun t => t.reg 1 == 0 && t.reg 15 == 0) = true ∧
    after (withRegs [(15, 9), (1, 3)]) 0x8F15 (fun t => t.reg 15 == 1) = true := by decide

/-- V54, V55. -/
theorem test_shr :
    after (withRegs [(4, 5)]) 0x8406 (fun t => t.reg 4 == 2 && t.reg 15 == 1) = true ∧
    after (withRegs [(4, 4), (7, 0xFF), (15, 1)]) 0x8476 (fun t => t.reg 4 == 2 && t.reg 15 == 0) = true := by decide

/-- V57, V58. -/
theorem test_subn :
    after (withRegs [(1, 2), (2, 5)]) 0x8127 (fun t => t.reg 1 == 3 && t.reg 15 == 1) = true ∧
    after (withRegs [(1, 5), (2, 2)]) 0x8127 (fun t => t.reg 1 == 0xFD && t.reg 15 == 0) = true := by decide

/-- V59, V60. -/
theorem test_shl :
    after (withRegs [(4, 0x81)]) 0x840E (fun t => t.reg 4 == 2 && t.reg 15 == 1) = true ∧
    after (withRegs [(4, 0x40), (15, 1)]) 0x840E (fun t => t.reg 4 == 0x80 && t.reg 15 == 0) = true := by decide

/-- V56, V61: the shifts with X = F. -/
theorem test_shifts_flag_register :
    after (withRegs [(15, 3)]) 0x8F06 (fun t => t.reg 15 == 1) = true ∧
    after (withRegs [(15, 0x80)]) 0x8FFE (fun t => t.reg 15 == 1) = true := by decide

/-! ## Register skip, index, offset jump, random -/

/-- V70, V71. -/
theorem test_sneReg :
    after (withRegs [(1, 1), (2, 2)]) 0x9120 (fun t => t.pc == 0x204) = true ∧
    after (withRegs [(1, 2), (2, 2)]) 0x9120 (fun t => t.pc == 0x202) = true := by decide

/-- V73. -/
theorem test_ldI : after base 0xA2F0 (fun t => t.i == 0x2F0 && t.pc == 0x202) = true := by decide

/-- V74, V75: no mask. -/
theorem test_jpV0 :
    after (withRegs [(0, 4)]) 0xB300 (fun t => t.pc == 0x304) = true ∧
    after (withRegs [(0, 0xFF)]) 0xBF80 (fun t => t.pc == 0x107F && t.status == .running) = true := by decide

/-- V76, V77: the supplied byte is masked and used up. -/
theorem test_rnd :
    after { base with randIn := [0xB7, 1] } 0xC30F (fun t => t.reg 3 == 7 && t.randIn == [1]) = true ∧
    after { withRegs [(3, 9)] with randIn := [0xFF] } 0xC300 (fun t => t.reg 3 == 0) = true := by decide

/-! ## Drawing -/

/-- V80: glyph 0 at (0, 0) on a clear screen: 4 + 2 + 2 + 2 + 4 pixels, no collision, one Present with the new grid. -/
theorem test_drw_glyph :
    after base 0xD015 (fun t => litPixels t == 14 && pixelAt t 0 0 && pixelAt t 3 0 && pixelAt t 0 1 && !pixelAt t 1 1 &&
      pixelAt t 3 4 && t.reg 15 == 0 && t.out == [.present t.fb]) = true := by decide

/-- V82: a sprite over the corner wraps in both directions (24 pixels). -/
theorem test_drw_wraps :
    after { withBytes (withRegs [(0, 62), (1, 30)]) 0x300 [0xFF, 0xFF, 0xFF] with i := 0x300 } 0xD013
      (fun t => litPixels t == 24 && pixelAt t 62 30 && pixelAt t 5 30 && pixelAt t 63 0 && pixelAt t 0 0 &&
        !pixelAt t 6 0 && t.reg 15 == 0) = true := by decide

/-- V87: a collision clears its pixel and sets VF. -/
theorem test_drw_collides :
    after { withPixel (withBytes base 0x300 [0xC0]) 1 0 with i := 0x300 } 0xD011
      (fun t => pixelAt t 0 0 && !pixelAt t 1 0 && t.reg 15 == 1) = true := by decide

/-- V85 and V84: a bad address draws nothing; N = 0 reads nothing, clears VF and presents. -/
theorem test_drw_corners :
    after { base with i := 0xFFE } 0xD013
      (fun t => faulted .addressRangeError 0x200 (some 0xD013) (some 0x1000) t && litPixels t == 0) = true ∧
    after { withRegs [(15, 1)] with i := 0xFFFF } 0xD010
      (fun t => t.reg 15 == 0 && litPixels t == 0 && t.out == [.present t.fb]) = true := by decide

/-! ## Key skips -/

/-- V90, V92. -/
theorem test_skp :
    after { withRegs [(2, 5)] with key := some 5 } 0xE29E (fun t => t.pc == 0x204 && t.key == some 5) = true ∧
    after { withRegs [(2, 0x15)] with key := some 5 } 0xE29E (fun t => t.pc == 0x202) = true := by decide

/-- V93, V94. -/
theorem test_sknp :
    after (withRegs [(2, 5)]) 0xE2A1 (fun t => t.pc == 0x204) = true ∧
    after { withRegs [(2, 5)] with key := some 5 } 0xE2A1 (fun t => t.pc == 0x202) = true := by decide

/-! ## Category F -/

/-- V100. -/
theorem test_ldVDt : after { base with dt := 0x3C } 0xF507 (fun t => t.reg 5 == 0x3C && t.dt == 0x3C) = true := by decide

/-- V101, V102. -/
theorem test_ldVKey :
    after base 0xF30A (fun t => t.pc == 0x200 && t.reg 3 == 0) = true ∧
    after { base with key := some 7 } 0xF30A (fun t => t.reg 3 == 7 && t.pc == 0x202 && t.key == some 7) = true := by decide

/-- V103. -/
theorem test_ldDtV : after (withRegs [(1, 0x3C)]) 0xF115 (fun t => t.dt == 0x3C) = true := by decide

/-- V104. -/
theorem test_beep : after (withRegs [(2, 8)]) 0xF218 (fun t => t.out == [.beep 8] && t.pc == 0x202) = true := by decide

/-- V105, V106. -/
theorem test_addI :
    after { withRegs [(1, 1)] with i := 0xFFFF } 0xF11E (fun t => t.i == 0 && t.reg 15 == 0) = true ∧
    after { withRegs [(1, 0x10)] with i := 0xFFF } 0xF11E (fun t => t.i == 0x100F) = true := by decide

/-- V107, V109. -/
theorem test_ldGlyph :
    after (withRegs [(1, 0x0A)]) 0xF129 (fun t => t.i == 0x032) = true ∧
    after (withRegs [(1, 0xFF)]) 0xF129 (fun t => t.i == 0x4FB) = true := by decide

/-- V110, V112. -/
theorem test_bcd :
    after { withRegs [(0, 156)] with i := 0x300 } 0xF033
      (fun t => t.readBlock 0x300 3 == [1, 5, 6] && t.i == 0x300) = true ∧
    after { withRegs [(0, 255)] with i := 0x300 } 0xF033 (fun t => t.readBlock 0x300 3 == [2, 5, 5]) = true := by decide

/-- V113, V114: the lowest bad address is reported and no byte is written. -/
theorem test_bcd_out_of_range :
    after { withRegs [(0, 1)] with i := 0x1FF } 0xF033
      (fun t => faulted .addressRangeError 0x200 (some 0xF033) (some 0x1FF) t && t.readByte 0x201 == 0x33) = true ∧
    after { withRegs [(0, 1)] with i := 0xFFE } 0xF033
      (fun t => faulted .addressRangeError 0x200 (some 0xF033) (some 0x1000) t && t.readByte 0xFFF == 0) = true := by decide

/-- V115: with LOW_WRITE_PROTECT false the low area may be written. -/
theorem test_bcd_low_memory_unprotected :
    after { withRegs [(0, 123)] with i := 0x100, cfg := { testConfig with lowWriteProtect := false } } 0xF033
      (fun t => t.readBlock 0x100 3 == [1, 2, 3]) = true := by decide

/-- V116, V118. -/
theorem test_storeRegs :
    after { withRegs [(0, 1), (1, 2), (2, 3), (3, 4)] with i := 0x400 } 0xF255
      (fun t => t.readBlock 0x400 4 == [1, 2, 3, 0] && t.i == 0x403) = true ∧
    after { base with i := 0x1000 } 0xF055
      (faulted .addressRangeError 0x200 (some 0xF055) (some 0x1000)) = true := by decide

/-- V117: the block that ends at 0xFFF. -/
theorem test_storeRegs_to_the_top :
    after { withRegs [(0, 0x10), (14, 0x1E), (15, 0x1F)] with i := 0xFF0 } 0xFF55
      (fun t => t.readByte 0xFF0 == 0x10 && t.readByte 0xFFE == 0x1E && t.readByte 0xFFF == 0x1F && t.i == 0x1000) = true := by
  decide

/-- V119, V121. -/
theorem test_loadRegs :
    after { withBytes (withRegs [(3, 9)]) 0x300 [1, 5, 6] with i := 0x300 } 0xF265
      (fun t => t.reg 0 == 1 && t.reg 1 == 5 && t.reg 2 == 6 && t.reg 3 == 9 && t.i == 0x303) = true ∧
    after { base with i := 0xFFE } 0xF265
      (fun t => faulted .addressRangeError 0x200 (some 0xF265) (some 0x1000) t && t.i == 0xFFE) = true := by decide

/-- V122: loading from the font is legal. -/
theorem test_loadRegs_from_font :
    after base 0xF465 (fun t => t.reg 0 == 0xF0 && t.reg 1 == 0x90 && t.reg 4 == 0xF0 && t.i == 5) = true := by decide

/-! ## Events -/

/-- V130. -/
theorem test_tick :
    afterStep { base with dt := 1, schedule := [.tick] } (fun t => t.dt == 0 && t.schedule == []) = true ∧
    afterStep { base with schedule := [.tick] } (fun t => t.dt == 0) = true := by decide

/-- V131, V132: accepted after the window, dropped inside it. -/
theorem test_keyDown :
    afterStep { base with schedule := [.keyDown 4] } (fun t => t.key == some 4 && t.kcnt == 0) = true ∧
    afterStep { base with key := some 4, kcnt := 1, schedule := [.keyDown 9] }
      (fun t => t.key == some 4 && t.kcnt == 1) = true := by decide

/-- V134: any KeyUp clears. -/
theorem test_keyUp :
    afterStep { base with key := some 9, kcnt := 0, schedule := [.keyUp 2] } (fun t => t.key == none && t.kcnt == 0) = true :=
  by decide

/-- V132, V133: a cycle that commits counts, up to W. -/
theorem test_cycle_counts :
    after { base with kcnt := 0 } 0x1200 (fun t => t.kcnt == 1) = true ∧
    after { base with kcnt := 3 } 0x1200 (fun t => t.kcnt == 3) = true := by decide

/-- R510: a free event is counted and the schedule stays empty; a scheduled one is not counted. -/
theorem test_event_taken :
    ({ base with schedule := [], arrivals := 4 } : State).eventTaken.arrivals = 5 ∧
    ({ base with schedule := [.tick, .cycle], arrivals := 4 } : State).eventTaken.arrivals = 4 ∧
    ({ base with schedule := [.tick, .cycle] } : State).eventTaken.schedule = [.cycle] := by decide

/-- V135: the halted core takes no event in. -/
theorem test_halted_core :
    after { base with dt := 5 } 0x0001 (fun h => faulted .decodeError 0x200 (some 1) none h &&
      afterStep { h with schedule := [.tick] } (fun t => t.dt == 5) &&
      afterStep { h with schedule := [.keyDown 3] } (fun t => t.key == none) &&
      afterStep { h with schedule := [.cycle] } (fun t => t.out == h.out && t.pc == 0x200)) = true := by decide

/-! ## Witnesses: for each statement with hypotheses, a state and operands that meet them, at the edges of each clause -/

/-- The base machine with its I set. -/
def atIndex (w : Word) : State := { base with i := w }

/-- The base machine with its core halted. -/
def halted : State := base.halt { kind := .decodeError, pc := 0x200, op := some 0, addr := none }

/-- The machine about to run the jump to itself at 0x200. -/
def selfJump : State := withBytes base 0x200 [0x12, 0x00]

theorem base_canonical : base.memCanonical := rfl

theorem base_inv : base.inv := by
  refine ⟨rfl, ?_, ?_, ?_, ?_⟩
  · unfold State.latchBounded; decide
  · unfold State.haltRecorded; decide
  · unfold State.pcBounded; decide
  · unfold State.stackBounded; decide

theorem witness_DecodeInvertsEncode : (Instr.drw 15 15 15).wellFormed = true := by decide

theorem witness_EncodeInvertsDecode :
    decodeWord 0x00E0 = .ok .cls ∧ decodeWord 0xFF65 = .ok (.loadRegs 15) := by decide

theorem witness_TableRowsDoNotOverlap :
    ∃ r q : Row, r ∈ opcodeTable ∧ q ∈ opcodeTable ∧ r.covers 0xF065 = true ∧ q.covers 0xF065 = true :=
  ⟨⟨0xF065, 0xF0FF⟩, ⟨0xF065, 0xF0FF⟩, by decide⟩

/-- The longest image is 3584 bytes, and one more is refused; the edges of the font, the reserved area and the image. -/
theorem witness_BootPlacesTheImage :
    3584 < (List.replicate 3585 (1 : Byte)).length ∧ (List.replicate 3584 (1 : Byte)).length ≤ 3584 ∧
    (List.replicate 3584 (1 : Byte))[3583]? = some 1 ∧ 79 < 80 ∧ (80 ≤ 0x1FF ∧ 0x1FF < 0x200) ∧
    (80 ≤ 0x202 ∧ 0x200 + [0x12, (0x00 : Byte)].length ≤ 0x202) := by
  simp only [List.length_replicate, List.getElem?_replicate]
  decide

theorem witness_StepRunsTheDecodedInstruction :
    ∃ (s t : State) (i : Instr) (rest : List Byte), s.status = .running ∧ s.nextEvent = .cycle ∧ 0x200 ≤ s.pc.toNat ∧
      s.pc.toNat ≤ 0xFFE ∧ decode [s.readByte s.pc.toNat, s.readByte (s.pc.toNat + 1)] = .ok (i, rest) ∧
      exec i s.eventTaken = .next t :=
  ⟨selfJump, _, .jp 0x200, [], by decide, by decide, by decide, by decide, by decide, rfl⟩

/-- The same at the last address a fetch may use, with a scheduled Cycle and an instruction that raises. -/
theorem witness_StepRunsTheDecodedInstruction_raising :
    ∃ s : State, s.status = .running ∧ s.nextEvent = .cycle ∧ s.pc.toNat = 0xFFE ∧ s.schedule ≠ [] ∧
      decode [s.readByte s.pc.toNat, s.readByte (s.pc.toNat + 1)] = .ok (.ret, []) ∧
      ∃ t, exec .ret s.eventTaken = .next t ∧ t.status = .halted :=
  ⟨{ withBytes base 0xFFE [0x00, 0xEE] with pc := 0xFFE, schedule := [.cycle, .tick] },
    by decide, by decide, by decide, by decide, by decide, _, rfl, by decide⟩

/-- Both clauses of `EveryStepAnswersNext` about the next event: a scheduled one, and an empty schedule. -/
theorem witness_EveryStepAnswersNext :
    (∃ s : State, s.schedule = .keyDown 3 :: []) ∧ (∃ s : State, s.schedule = []) :=
  ⟨⟨{ base with schedule := [.keyDown 3] }, rfl⟩, ⟨State.reset, rfl⟩⟩

theorem witness_StoredInstructionIsFetched :
    halted.memCanonical ∧ (Instr.drw 1 2 15).wellFormed = true := ⟨rfl, by decide⟩

/-- Just below and just above the range. -/
theorem witness_FetchOutsideRangeHalts :
    (∃ s : State, s.status = .running ∧ s.nextEvent = .cycle ∧ s.pc.toNat = 0x1FF) ∧
    (∃ s : State, s.status = .running ∧ s.nextEvent = .cycle ∧ s.pc.toNat = 0xFFF) :=
  ⟨⟨{ base with pc := 0x1FF }, by decide⟩, ⟨{ base with pc := 0xFFF }, by decide⟩⟩

/-- At both ends of the range. -/
theorem witness_IllegalWordHalts :
    (∃ s : State, s.status = .running ∧ s.nextEvent = .cycle ∧ s.pc.toNat = 0x200 ∧
      decodeWord s.fetchWord = .error .illegalSystem) ∧
    (∃ s : State, s.status = .running ∧ s.nextEvent = .cycle ∧ s.pc.toNat = 0xFFE ∧
      decodeWord s.fetchWord = .error .illegalMisc) :=
  ⟨⟨base, by decide⟩, ⟨{ withBytes base 0xFFE [0xF0, 0xFF] with pc := 0xFFE }, by decide⟩⟩

theorem witness_HaltedCoreIsFrozen : halted.status = .halted := rfl

/-- DT at 0, 1 and 255. -/
theorem witness_TickCountsDown : ∀ b : Byte, b = 0 ∨ b = 1 ∨ b = 255 →
    ∃ s : State, s.dt = b ∧ s.status = .running ∧ s.nextEvent = .tick :=
  fun b _ => ⟨{ base with dt := b, schedule := [.tick] }, rfl, rfl, rfl⟩

/-- KeyDown with the window just elapsed, KeyDown one cycle before that, and KeyUp. -/
theorem witness_KeyEventsUpdateTheLatch :
    (∃ s : State, s.status = .running ∧ s.nextEvent = .keyDown 4 ∧ s.cfg.window ≤ s.kcnt ∧ s.kcnt = 3) ∧
    (∃ s : State, s.status = .running ∧ s.nextEvent = .keyDown 4 ∧ s.kcnt < s.cfg.window ∧ s.kcnt = 2) ∧
    (∃ s : State, s.status = .running ∧ s.nextEvent = .keyUp 4) :=
  ⟨⟨{ base with schedule := [.keyDown 4] }, by decide⟩, ⟨{ base with schedule := [.keyDown 4], kcnt := 2 }, by decide⟩,
    ⟨{ base with schedule := [.keyUp 4] }, by decide⟩⟩

/-- An empty stack, one entry, and all sixteen. -/
theorem witness_RetPopsTheReturnAddress :
    (∃ s : State, s.spInt = -1) ∧ (∃ s : State, s.spInt = ((0 : Fin 16).val : Int)) ∧
    (∃ s : State, s.spInt = ((15 : Fin 16).val : Int)) :=
  ⟨⟨base, by decide⟩, ⟨{ base with sp := some 0 }, by decide⟩, ⟨{ base with sp := some 15 }, by decide⟩⟩

/-- All sixteen entries, fifteen, and none. -/
theorem witness_CallPushesThePostFetchPc :
    (∃ s : State, s.spInt = 15) ∧ (∃ s : State, s.spInt < 15 ∧ s.spInt = 14) ∧ (∃ s : State, s.spInt < 15 ∧ s.spInt = -1) :=
  ⟨⟨{ base with sp := some 15 }, by decide⟩, ⟨{ base with sp := some 14 }, by decide⟩, ⟨base, by decide⟩⟩

theorem witness_CallThenRetComesBack :
    (∃ s : State, s.spInt < 15 ∧ s.spInt = 14) ∧ (∃ s : State, s.spInt < 15 ∧ s.spInt = -1) :=
  ⟨⟨{ base with sp := some 14 }, by decide⟩, ⟨base, by decide⟩⟩

/-- The key is in the register; no key; and a register above every key code. -/
theorem witness_SkipsOnTheKey :
    (∃ s : State, s.keyIs 2) ∧ (∃ s : State, ¬ s.keyIs 2 ∧ s.key = none) ∧
    (∃ s : State, ¬ s.keyIs 2 ∧ s.key = some 5) := by
  refine ⟨⟨{ withRegs [(2, 15)] with key := some 15 }, ?_⟩, ⟨base, ?_⟩,
    ⟨{ withRegs [(2, 0x15)] with key := some 5 }, ?_⟩⟩ <;> unfold State.keyIs <;> decide

/-- A destination other than VF, for the results of the flag-setting instructions (for `AddsWithCarry`,
`SubtractsWithNoBorrowFlag`, `SubtractsInReverse` and `ShiftsByOne`). -/
theorem witness_flagSettingDestination : (14 : Reg) ≠ regF := by decide

theorem witness_RandomByteUnderAMask :
    (∃ s : State, s.randIn = 0xB7 :: []) ∧ (∃ s : State, s.randIn = []) :=
  ⟨⟨{ base with randIn := [0xB7] }, rfl⟩, ⟨base, rfl⟩⟩

/-- A sprite that ends at 0xFFF; the premise that none of its addresses is out of bounds. -/
theorem atTop_loadable : ∀ r < 15, loadable ((atIndex 0xFF1).i.toNat + r) := by
  unfold loadable; decide

/-- Fifteen rows up to 0xFFF; a covered active pixel; and no covered pixel at all. -/
theorem witness_DrawFlipsThePixelsUnderTheSprite :
    ((15 < 16 ∧ ∀ r < 15, loadable ((atIndex 0xFF1).i.toNat + r))) ∧
    (∃ s : State, (∀ r < 1, loadable (s.i.toNat + r)) ∧ ∃ q p, spriteCovers s 0 0 1 q p ∧ s.fb.pixel q p = true) ∧
    (∃ s : State, (∀ r < 0, loadable (s.i.toNat + r)) ∧ ¬ ∃ q p, spriteCovers s 0 0 0 q p ∧ s.fb.pixel q p = true) := by
  refine ⟨⟨by decide, atTop_loadable⟩, ⟨withPixel base 0 0, ?_, 0, 0, ?_, by decide⟩, ⟨base, ?_, ?_⟩⟩
  · unfold loadable; decide
  · exact ⟨0, by decide, by decide, 0, by decide, by decide, by decide⟩
  · intro r h; cases h
  · rintro ⟨_, _, ⟨_, h, _⟩, _⟩; cases h

/-- The last row one past 0xFFF, and I itself past it. -/
theorem witness_DrawOutsideMemoryHalts :
    (15 < 16 ∧ lowestBad loadable (atIndex 0xFF2).i.toNat 15 14) ∧
    (1 < 16 ∧ lowestBad loadable (atIndex 0xFFFF).i.toNat 1 0) := by
  unfold lowestBad loadable; decide

/-- For `DrawTwiceRestoresTheScreen` and `SecondDrawAlwaysCollides`: registers that are not VF, a sprite in bounds with
a 1 bit, and two draws. -/
theorem witness_DrawTwice :
    ∃ (s t u : State), (0 : Reg) ≠ regF ∧ (1 : Reg) ≠ regF ∧ 5 < 16 ∧ (∀ r < 5, loadable (s.i.toNat + r)) ∧
      (∃ q p, spriteCovers s 0 1 5 q p) ∧ exec (.drw 0 1 5) s = .next t ∧ exec (.drw 0 1 5) t = .next u := by
  refine ⟨base, _, _, by decide, by decide, by decide, ?_, ⟨0, 0, 0, by decide, by decide, 0, by decide, by decide,
    by decide⟩, rfl, rfl⟩
  unfold loadable; decide

/-- For `OutputsOfEveryInstruction`, `OnlyListedPartsAreWritten`, `OnlyListedInstructionsHalt` and
`PcAfterEveryInstruction`: an instruction that commits, and one that halts the core. -/
theorem witness_commitsAndHalts :
    (∃ t, base.status = .running ∧ exec (.beep 0) base = .next t ∧ t.status = .running) ∧
    (∃ t, base.status = .running ∧ exec .ret base = .next t ∧ t.status = .halted) :=
  ⟨⟨_, rfl, rfl, by decide⟩, ⟨_, rfl, rfl, by decide⟩⟩

theorem witness_WaitsForAKey : (∃ s : State, s.key = none) ∧ (∃ s : State, s.key = some 0) ∧ (∃ s : State, s.key = some 15) :=
  ⟨⟨base, rfl⟩, ⟨{ base with key := some 0 }, rfl⟩, ⟨{ base with key := some 15 }, rfl⟩⟩

/-- The three bytes at the top and just above the protected area; the first bad one below 0x200; the last bad one past
0xFFF; and low memory where it is not protected. -/
theorem witness_StoresDecimalDigits :
    (atIndex 0xFFD).memCanonical ∧ (∀ k < 3, storable (atIndex 0xFFD) ((atIndex 0xFFD).i.toNat + k)) ∧
    (∀ k < 3, storable (atIndex 0x200) ((atIndex 0x200).i.toNat + k)) ∧
    lowestBad (storable (atIndex 0x1FF)) (atIndex 0x1FF).i.toNat 3 0 ∧
    lowestBad (storable (atIndex 0xFFD)) (atIndex 0xFFE).i.toNat 3 2 ∧
    (∃ s : State, s.memCanonical ∧ s.i = 0 ∧ ∀ k < 3, storable s (s.i.toNat + k)) := by
  refine ⟨rfl, ?_, ?_, ?_, ?_, ⟨{ base with cfg := { testConfig with lowWriteProtect := false } }, rfl, rfl, ?_⟩⟩ <;>
    unfold storable <;> (try unfold lowestBad) <;> decide

/-- Sixteen bytes up to 0xFFF, one byte at 0x200, the sixteenth past 0xFFF, and the first below 0x200. -/
theorem witness_StoresTheRegisterBlock :
    (atIndex 0xFF0).memCanonical ∧ (∀ k < (15 : Reg).val + 1, storable (atIndex 0xFF0) ((atIndex 0xFF0).i.toNat + k)) ∧
    (∀ k < (0 : Reg).val + 1, storable (atIndex 0x200) ((atIndex 0x200).i.toNat + k)) ∧
    lowestBad (storable (atIndex 0xFF1)) (atIndex 0xFF1).i.toNat ((15 : Reg).val + 1) 15 ∧
    lowestBad (storable (atIndex 0x1FF)) (atIndex 0x1FF).i.toNat ((0 : Reg).val + 1) 0 := by
  refine ⟨rfl, ?_, ?_, ?_, ?_⟩ <;> unfold storable <;> (try unfold lowestBad) <;> decide

/-- Sixteen bytes up to 0xFFF, one byte at 0, the sixteenth past 0xFFF, and I itself past it. -/
theorem witness_LoadsTheRegisterBlock :
    (∀ k < (15 : Reg).val + 1, loadable ((atIndex 0xFF0).i.toNat + k)) ∧
    (∀ k < (0 : Reg).val + 1, loadable ((atIndex 0).i.toNat + k)) ∧
    lowestBad loadable (atIndex 0xFF1).i.toNat ((15 : Reg).val + 1) 15 ∧
    lowestBad loadable (atIndex 0x1000).i.toNat ((0 : Reg).val + 1) 0 := by
  unfold lowestBad loadable; decide

theorem witness_StoredBlockLoadsBack :
    (atIndex 0xFF0).memCanonical ∧ ∀ k < (15 : Reg).val + 1, storable (atIndex 0xFF0) ((atIndex 0xFF0).i.toNat + k) := by
  refine ⟨rfl, ?_⟩
  unfold storable; decide

theorem witness_OnlyNamedRegistersAreWritten :
    (∃ t, exec (.addReg 1 2) base = .next t) ∧ writesReg 2 (.addReg 1 2) = false ∧
    (∃ t, exec (.loadRegs 3) base = .next t) ∧ writesReg 4 (.loadRegs 3) = false :=
  ⟨⟨_, rfl⟩, by decide, ⟨_, rfl⟩, by decide⟩

theorem witness_LowMemoryIsNeverWritten :
    ∃ t, base.memCanonical ∧ base.cfg.lowWriteProtect = true ∧ step base = .next t ∧ 0x1FF < 0x200 :=
  ⟨_, rfl, rfl, rfl, by decide⟩

theorem witness_EventsDoNotChangeControlFlow :
    ∀ e : HostEvent, e = .tick ∨ e = .keyDown 3 ∨ e = .keyUp 3 →
      e ≠ .cycle ∧ ∃ s t : State, s.nextEvent = e ∧ step s = .next t := by
  rintro e (rfl | rfl | rfl)
  · exact ⟨by decide, { base with schedule := [.tick] }, _, rfl, rfl⟩
  · exact ⟨by decide, { base with schedule := [.keyDown 3] }, _, rfl, rfl⟩
  · exact ⟨by decide, { base with schedule := [.keyUp 3] }, _, rfl, rfl⟩

theorem witness_OutputIsNeverRead : ∃ t, step base = .next t := ⟨_, rfl⟩

theorem witness_CompletedRunStaysCompleted : selfJump.completed ∧ selfJump.nextEvent = .cycle :=
  ⟨⟨rfl, by decide, 0x200, by decide, by decide⟩, rfl⟩

theorem witness_StepKeepsTheInvariant : base.inv ∧ ∃ t, step base = .next t := ⟨base_inv, _, rfl⟩

theorem witness_BootMeetsTheInvariant : ∃ s, State.boot testConfig defaultResetValues [0x12, 0x00] [.tick] [7] = some s := ⟨_, rfl⟩

end Sys2Proof.Tests
end

section
/-! The loaded machine as one record, what each of its bytes reads as, and the obligation about it
(10_state.md R66; 20_memory.md R103, R104; 70_reset_and_hazards.md R601, R602). -/

namespace Sys2Proof.Machine

/-! ## Reset contents -/

theorem resetByte_of_lt_fontSize (c : Config) (a : Nat) (h : a < fontSize) : resetByte c a = c.font[a] := dif_pos h

theorem resetByte_of_fontSize_le (c : Config) (a : Nat) (h : fontSize ≤ a) : resetByte c a = c.memFill :=
  dif_neg (Nat.not_lt.mpr h)

/-! ## The loaded machine -/

section
variable (c : Config) (v : ResetValues) (image : List Byte) (events : List HostEvent) (rand : List Byte)

/-- The machine `State.boot` builds from an image that fits: reset, with the image and the host's ports in place
(`State.boot_of_le` ties it to the model). -/
def State.loaded : State :=
  { State.resetWith c v with
    mem := Memory.place c [] progBase image
    schedule := events
    randIn := rand }

theorem State.boot_of_le (h : image.length ≤ maxImage) :
    State.boot c v image events rand = some (State.loaded c v image events rand) := if_pos h

theorem State.boot_of_lt (h : maxImage < image.length) : State.boot c v image events rand = none :=
  if_neg (Nat.not_le.mpr h)

/-- The image over the reset contents: loading starts from the empty list, so `Memory.read_place` applies. -/
theorem State.readByte_loaded (h : image.length ≤ maxImage) (a : Nat) :
    (State.loaded c v image events rand).readByte a =
      if progBase ≤ a then (image[a - progBase]?).getD (resetByte c a) else resetByte c a :=
  Memory.read_place c image [] progBase a (Nat.add_le_of_le_sub' (by decide) h) rfl

theorem State.readByte_loaded_image (h : image.length ≤ maxImage) (k : Nat) (b : Byte) (hk : image[k]? = some b) :
    (State.loaded c v image events rand).readByte (progBase + k) = b := by
  simp only [State.readByte_loaded c v image events rand h, Nat.le_add_right, if_true, Nat.add_sub_cancel_left, hk,
    Option.getD_some]

theorem State.readByte_loaded_outside (h : image.length ≤ maxImage) (a : Nat)
    (ha : a < progBase ∨ progBase + image.length ≤ a) :
    (State.loaded c v image events rand).readByte a = resetByte c a := by
  rw [State.readByte_loaded c v image events rand h]
  obtain hbelow | hpast := ha
  · rw [if_neg (Nat.not_le.mpr hbelow)]
  · rw [if_pos (Nat.le_of_add_right_le hpast), List.getElem?_eq_none (Nat.le_sub_of_add_le' hpast), Option.getD_none]

end

/-- Settles O9: the memory clauses are the reads of `State.loaded`, every other clause is a field of `State.resetWith` or
an argument. -/
theorem bootPlacesTheImage : Obligations.BootPlacesTheImage := by
  intro c v image events rand
  refine ⟨State.boot_of_lt c v image events rand, fun hfit =>
    ⟨State.loaded c v image events rand, State.boot_of_le c v image events rand hfit, ?image, ?font, ?fill,
      fun _ => rfl, rfl, rfl, rfl, rfl, ?stack, Framebuffer.pixel_clear,
      rfl, rfl, rfl, rfl, rfl, rfl, rfl, rfl, rfl, rfl⟩⟩
  case image => exact State.readByte_loaded_image c v image events rand hfit
  case font =>
    intro a ha
    rw [State.readByte_loaded_outside c v image events rand hfit a (.inl (Nat.lt_trans ha (by decide))),
      resetByte_of_lt_fontSize c a ha]
  case fill =>
    intro a ha hout
    rw [State.readByte_loaded_outside c v image events rand hfit a hout, resetByte_of_fontSize_le c a ha]
  case stack => exact Vector.get_replicate 16 0

end Sys2Proof.Machine
end

section
/-! What an instruction and a step keep of the state (10_state.md R45, R50, R52, R69): what a checked access, 00EE, 2NNN
and FX0A can answer, the frame of each state operation, and the invariant through each state operation; from these the
obligations about the parts an instruction writes, about the pc after it, and about the invariant. -/

namespace Sys2Proof.Machine

/-- Settles O8: the framebuffer of a machine just reset is the clear one. -/
theorem resetScreenIsClear : Obligations.ResetScreenIsClear := by
  intro c v y x
  exact Framebuffer.pixel_clear y x

/-! ## What the instructions with a choice can answer -/

/-- All a checked access can answer: the halt at the lowest bad address, or its own next state. -/
theorem checked_next_cases {ok : Nat → Bool} {base n : Nat} {op : Word} {s t u : State}
    (h : checked ok base n op s (.next u) = .next t) :
    (∃ k < n, ok (base + k) = false ∧ (∀ j < k, ok (base + j) = true) ∧
      t = s.halt { kind := .addressRangeError, pc := s.pc, op := some op, addr := some (base + k) }) ∨
    ((∀ k < n, ok (base + k) = true) ∧ t = u) := by
  obtain ⟨hok, he⟩ | ⟨k, hk, hbad, hlow, he⟩ := checked_cases ok base n op s (.next u)
  · rw [he] at h
    cases h
    exact .inr ⟨hok, rfl⟩
  · rw [he] at h
    cases h
    exact .inl ⟨k, hk, hbad, hlow, rfl⟩

/-- All 00EE can answer: StackUnderflow on an empty stack, or the newest entry popped into pc. -/
theorem exec_ret_cases {s t : State} (h : exec .ret s = .next t) :
    (s.sp = none ∧ t = s.halt { kind := .stackUnderflow, pc := s.pc, op := some (encode .ret), addr := none }) ∨
    (∃ k, s.sp = some k ∧ t = (s.drop k).jump (s.stack.get k)) := by
  change execRet s = .next t at h
  unfold execRet at h
  cases hsp : s.sp with
  | none => rw [hsp] at h; cases h; exact .inl ⟨rfl, rfl⟩
  | some k => rw [hsp] at h; cases h; exact .inr ⟨k, rfl, rfl⟩

/-- All 2NNN can answer: StackOverflow on a full stack, or pc + 2 pushed and pc set to NNN. -/
theorem exec_call_cases {nnn : Addr12} {s t : State} (h : exec (.call nnn) s = .next t) :
    (nextSlot s.sp = none ∧
      t = s.halt { kind := .stackOverflow, pc := s.pc, op := some (encode (.call nnn)), addr := none }) ∨
    (∃ k, nextSlot s.sp = some k ∧ t = (s.push k s.pcNext).jump (addrOf nnn)) := by
  change execCall nnn s = .next t at h
  unfold execCall at h
  cases hsp : nextSlot s.sp with
  | none => rw [hsp] at h; cases h; exact .inl ⟨rfl, rfl⟩
  | some k => rw [hsp] at h; cases h; exact .inr ⟨k, rfl, rfl⟩

/-- All FX0A can answer: pc stays while no key is latched, else the key's code is loaded. -/
theorem exec_ldVKey_cases {x : Reg} {s t : State} (h : exec (.ldVKey x) s = .next t) :
    (s.key = none ∧ t = s.jump s.pc) ∨ (∃ k, s.key = some k ∧ t = (s.setReg x (keyByte k)).advance) := by
  change execLdVKey x s = .next t at h
  unfold execLdVKey at h
  cases hk : s.key with
  | none => rw [hk] at h; cases h; exact .inl ⟨rfl, rfl⟩
  | some k => rw [hk] at h; cases h; exact .inr ⟨k, rfl, rfl⟩

/-! ## Addresses that reach the pc, as numbers -/

theorem addrOf_toNat (nnn : Addr12) : (addrOf nnn).toNat = nnn.toNat := by
  have := nnn.isLt
  simp only [addrOf, BitVec.toNat_ofNat]; omega

theorem offsetTarget_toNat (v0 : Byte) (nnn : Addr12) : (offsetTarget v0 nnn).toNat = v0.toNat + nnn.toNat := by
  have := v0.isLt
  have := nnn.isLt
  simp only [offsetTarget, BitVec.toNat_ofNat]; omega

/-- From a pc that may be fetched from, pc + 2 and pc + 4 are exact (log entry 19). -/
theorem toNat_add_of_fetchable {pc : Word} (h : pc.toNat ≤ 0xFFE) {d : Word} (hd : d.toNat ≤ 4) :
    (pc + d).toNat = pc.toNat + d.toNat := by
  rw [BitVec.toNat_add]; omega

theorem State.skipIf_pc_cases (s : State) (c : Bool) : (s.skipIf c).pc = s.pc + 2 ∨ (s.skipIf c).pc = s.pc + 4 := by
  cases c
  · exact .inl rfl
  · exact .inr rfl

/-! ## The pc after an instruction -/

/-- Settles O53: a raise does not commit, and what each instruction's commit leaves in pc is a field of its state. -/
theorem pcAfterEveryInstruction : Obligations.PcAfterEveryInstruction := by
  intro i s t _ h ht
  cases i with
  | jp nnn => cases h; exact addrOf_toNat nnn
  | jpV0 nnn => cases h; exact offsetTarget_toNat (s.reg 0) nnn
  | call nnn =>
    obtain ⟨-, rfl⟩ | ⟨k, -, rfl⟩ := exec_call_cases h
    · cases ht
    · exact addrOf_toNat nnn
  | ret =>
    obtain ⟨-, rfl⟩ | ⟨k, hk, rfl⟩ := exec_ret_cases h
    · cases ht
    · exact ⟨k, by simp [State.spInt, hk], rfl⟩
  | seImm | sneImm | seReg | sneReg | skp | sknp => cases h; exact State.skipIf_pc_cases s _
  | ldVKey x =>
    obtain ⟨hk, rfl⟩ | ⟨k, hk, rfl⟩ := exec_ldVKey_cases h
    · simp [hk]
    · simp [hk]
  | drw | bcd =>
    obtain ⟨_, -, -, -, rfl⟩ | ⟨-, rfl⟩ := checked_next_cases h
    · cases ht
    · rfl
  | storeRegs | loadRegs =>
    obtain ⟨_, -, -, -, rfl⟩ | ⟨-, rfl⟩ := checked_next_cases h
    · cases ht
    · simp
  | rnd => cases h; simp
  | cls | ldImm | addImm | ldReg | orReg | andReg | xorReg | addReg | subReg | shr | subn | shl | ldI | ldVDt | ldDtV
  | beep | addI | ldGlyph => cases h; rfl

/-! ## The frame of each state operation -/

theorem Part.same_refl (p : Part) (s : State) : p.same s s := by
  cases p <;> simp [Part.same]

theorem Part.same_trans {p : Part} {s t u : State} (h : p.same s t) (h' : p.same t u) : p.same s u := by
  cases p <;> simp_all [Part.same]

theorem onlyChanged_refl (ps : List Part) (s : State) : onlyChanged ps s s := fun p _ => p.same_refl s

/-- One more operation whose own frame is inside the listed parts. -/
theorem onlyChanged.andThen {ps qs : List Part} {s t u : State} (h : onlyChanged ps s t) (h' : onlyChanged qs t u)
    (hsub : qs ⊆ ps := by simp [writesParts]) : onlyChanged ps s u :=
  fun p hp => Part.same_trans (h p hp) (h' p (fun hq => hp (hsub hq)))

theorem onlyChanged_setReg (s : State) (r : Reg) (b : Byte) : onlyChanged [.regs] s (s.setReg r b) := by
  intro p hp
  cases p <;> simp_all [Part.same]

theorem onlyChanged_loadBlock (s : State) (base n : Nat) : onlyChanged [.regs] s (s.loadBlock base n) := by
  intro p hp
  cases p <;> simp_all [Part.same]

theorem onlyChanged_setIndex (s : State) (w : Word) : onlyChanged [.index] s (s.setIndex w) := by
  intro p hp
  cases p <;> simp_all [Part.same]

theorem onlyChanged_setTimer (s : State) (b : Byte) : onlyChanged [.timer] s (s.setTimer b) := by
  intro p hp
  cases p <;> simp_all [Part.same]

theorem onlyChanged_jump (s : State) (w : Word) : onlyChanged [.counter] s (s.jump w) := by
  intro p hp
  cases p <;> simp_all [Part.same]

theorem onlyChanged_skipIf (s : State) (c : Bool) : onlyChanged [.counter] s (s.skipIf c) := by
  intro p hp
  cases p <;> simp_all [Part.same]

theorem onlyChanged_writeByte (s : State) (a : Nat) (b : Byte) : onlyChanged [.memory] s (s.writeByte a b) := by
  intro p hp
  cases p <;> simp_all [Part.same]

theorem onlyChanged_storeBlock (s : State) (base n : Nat) : onlyChanged [.memory] s (s.storeBlock base n) := by
  intro p hp
  cases p <;> simp_all [Part.same]

theorem onlyChanged_setScreen (s : State) (g : Framebuffer) : onlyChanged [.screen] s { s with fb := g } := by
  intro p hp
  cases p <;> simp_all [Part.same, State.reg, State.readByte]

theorem onlyChanged_emit (s : State) (e : OutEvent) : onlyChanged [.output] s (s.emit e) := by
  intro p hp
  cases p <;> simp_all [Part.same]

theorem onlyChanged_push (s : State) (k : Fin 16) (w : Word) : onlyChanged [.stack] s (s.push k w) := by
  intro p hp
  cases p <;> simp_all [Part.same]

theorem onlyChanged_drop (s : State) (k : Fin 16) : onlyChanged [.stack] s (s.drop k) := by
  intro p hp
  cases p <;> simp_all [Part.same]

theorem onlyChanged_consumeRand (s : State) : onlyChanged [.random] s s.consumeRand := by
  intro p hp
  cases p <;> simp_all [Part.same]

/-! ## The frame of every instruction -/

/-- A frame that already lists pc takes in the jump that ends an instruction. -/
theorem onlyChanged.thenJump {ps : List Part} {s u : State} (h : onlyChanged (.regs :: .counter :: ps) s u) (w : Word) :
    onlyChanged (.regs :: .counter :: ps) s (u.jump w) :=
  h.andThen (onlyChanged_jump u w)

/-- A frame that already lists V takes in a register write. -/
theorem onlyChanged.thenSetReg {ps : List Part} {s u : State} (h : onlyChanged (.regs :: ps) s u) (r : Reg) (b : Byte) :
    onlyChanged (.regs :: ps) s (u.setReg r b) :=
  h.andThen (onlyChanged_setReg u r b)

/-- Settles O51: a raise does not commit, and a commit is a chain of operations, each with its own frame. -/
theorem onlyListedPartsAreWritten : Obligations.OnlyListedPartsAreWritten := by
  intro i s t _ h ht
  have hstart := onlyChanged_refl (.regs :: .counter :: writesParts i) s
  cases i with
  | jp | jpV0 => cases h; exact hstart.thenJump _
  | seImm | sneImm | seReg | sneReg | skp | sknp => cases h; exact hstart.andThen (onlyChanged_skipIf s _)
  | ldImm | addImm | ldReg | orReg | andReg | xorReg | ldVDt => cases h; exact (hstart.thenSetReg _ _).thenJump _
  | addReg | subReg | shr | subn | shl => cases h; exact ((hstart.thenSetReg _ _).thenSetReg _ _).thenJump _
  | rnd => cases h; exact ((hstart.andThen (onlyChanged_consumeRand s)).thenSetReg _ _).thenJump _
  | ldVKey =>
    obtain ⟨-, rfl⟩ | ⟨k, -, rfl⟩ := exec_ldVKey_cases h
    · exact hstart.thenJump _
    · exact (hstart.thenSetReg _ _).thenJump _
  | ldI | addI | ldGlyph => cases h; exact (hstart.andThen (onlyChanged_setIndex s _)).thenJump _
  | ldDtV => cases h; exact (hstart.andThen (onlyChanged_setTimer s _)).thenJump _
  | beep => cases h; exact (hstart.andThen (onlyChanged_emit s _)).thenJump _
  | cls => cases h; exact (hstart.andThen (onlyChanged_setScreen s _)).thenJump _
  | ret =>
    obtain ⟨-, rfl⟩ | ⟨k, -, rfl⟩ := exec_ret_cases h
    · cases ht
    · exact (hstart.andThen (onlyChanged_drop s k)).thenJump _
  | call =>
    obtain ⟨-, rfl⟩ | ⟨k, -, rfl⟩ := exec_call_cases h
    · cases ht
    · exact (hstart.andThen (onlyChanged_push s k _)).thenJump _
  | drw =>
    obtain ⟨_, -, -, -, rfl⟩ | ⟨-, rfl⟩ := checked_next_cases h
    · cases ht
    · exact (((hstart.andThen (onlyChanged_setScreen s _)).thenSetReg _ _).thenJump _).andThen
        (onlyChanged_emit _ _)
  | bcd =>
    obtain ⟨_, -, -, -, rfl⟩ | ⟨-, rfl⟩ := checked_next_cases h
    · cases ht
    · exact (((hstart.andThen (onlyChanged_writeByte s _ _)).andThen (onlyChanged_writeByte _ _ _)).andThen
        (onlyChanged_writeByte _ _ _)).thenJump _
  | storeRegs =>
    obtain ⟨_, -, -, -, rfl⟩ | ⟨-, rfl⟩ := checked_next_cases h
    · cases ht
    · exact ((hstart.andThen (onlyChanged_storeBlock s _ _)).andThen (onlyChanged_setIndex _ _)).thenJump _
  | loadRegs =>
    obtain ⟨_, -, -, -, rfl⟩ | ⟨-, rfl⟩ := checked_next_cases h
    · cases ht
    · exact ((hstart.andThen (onlyChanged_loadBlock s _ _)).andThen (onlyChanged_setIndex _ _)).thenJump _

/-! ## The invariant through each state operation -/

/-- The invariant under the parameters `c`; `State.inv` and the field `cfg` are its two halves. -/
def State.invUnder (c : Config) (s : State) : Prop := s.inv ∧ s.cfg = c

/-- The invariant speaks of these fields only. -/
theorem State.invUnder.congr {c : Config} {s t : State} (h : s.invUnder c) (hmem : t.mem = s.mem) (hcfg : t.cfg = s.cfg)
    (hkcnt : t.kcnt = s.kcnt) (hstatus : t.status = s.status) (hfault : t.fault = s.fault) (hpc : t.pc = s.pc)
    (hstack : t.stack = s.stack) : t.invUnder c := by
  simpa only [State.invUnder, State.inv, State.memCanonical, State.latchBounded, State.haltRecorded, State.pcBounded,
    State.stackBounded, hmem, hcfg, hkcnt, hstatus, hfault, hpc, hstack] using h

theorem State.invUnder.stack_le {c : Config} {s : State} (h : s.invUnder c) (k : Fin 16) :
    (s.stack.get k).toNat ≤ 0x1000 := by
  obtain ⟨⟨-, -, -, -, hstack⟩, -⟩ := h
  exact hstack k

theorem State.invUnder.setReg {c : Config} {s : State} (h : s.invUnder c) (r : Reg) (b : Byte) :
    (s.setReg r b).invUnder c := h.congr rfl rfl rfl rfl rfl rfl rfl

theorem State.invUnder.setIndex {c : Config} {s : State} (h : s.invUnder c) (w : Word) :
    (s.setIndex w).invUnder c := h.congr rfl rfl rfl rfl rfl rfl rfl

theorem State.invUnder.setTimer {c : Config} {s : State} (h : s.invUnder c) (b : Byte) :
    (s.setTimer b).invUnder c := h.congr rfl rfl rfl rfl rfl rfl rfl

theorem State.invUnder.setScreen {c : Config} {s : State} (h : s.invUnder c) (g : Framebuffer) :
    ({ s with fb := g } : State).invUnder c := h.congr rfl rfl rfl rfl rfl rfl rfl

theorem State.invUnder.emit {c : Config} {s : State} (h : s.invUnder c) (e : OutEvent) :
    (s.emit e).invUnder c := h.congr rfl rfl rfl rfl rfl rfl rfl

theorem State.invUnder.drop {c : Config} {s : State} (h : s.invUnder c) (k : Fin 16) :
    (s.drop k).invUnder c := h.congr rfl rfl rfl rfl rfl rfl rfl

theorem State.invUnder.consumeRand {c : Config} {s : State} (h : s.invUnder c) : s.consumeRand.invUnder c :=
  h.congr (by simp) (by simp) (by simp) (by simp) (by simp) (by simp) (by simp)

theorem State.invUnder.loadBlock {c : Config} {s : State} (h : s.invUnder c) (base n : Nat) :
    (s.loadBlock base n).invUnder c :=
  h.congr (by simp) (by simp) (by simp) (by simp) (by simp) (by simp) (by simp)

theorem State.invUnder.jump {c : Config} {s : State} (h : s.invUnder c) {w : Word} (hw : w.toNat ≤ 0x10FE) :
    (s.jump w).invUnder c := by
  obtain ⟨⟨hmem, hlatch, hhalt, -, hstack⟩, hcfg⟩ := h
  exact ⟨⟨hmem, hlatch, hhalt, hw, hstack⟩, hcfg⟩

theorem State.invUnder.advance {c : Config} {s : State} (h : s.invUnder c) (hpc : s.pc.toNat ≤ 0xFFE) :
    s.advance.invUnder c := by
  refine h.jump ?_
  rw [State.pcNext, toNat_add_of_fetchable hpc (by decide)]
  exact Nat.le_trans (Nat.add_le_add_right hpc _) (by decide)

theorem State.invUnder.skipIf {c : Config} {s : State} (h : s.invUnder c) (hpc : s.pc.toNat ≤ 0xFFE) (b : Bool) :
    (s.skipIf b).invUnder c := by
  cases b with
  | false => exact h.advance hpc
  | true =>
    refine h.jump ?_
    rw [toNat_add_of_fetchable hpc (by decide)]
    exact Nat.le_trans (Nat.add_le_add_right hpc _) (by decide)

theorem State.invUnder.writeByte {c : Config} {s : State} (h : s.invUnder c) {a : Nat} (ha : a < memSize) (b : Byte) :
    (s.writeByte a b).invUnder c := by
  obtain ⟨⟨hmem, hlatch, hhalt, hpc, hstack⟩, hcfg⟩ := h
  exact ⟨⟨s.wf_writeByte a b ha hmem, hlatch, hhalt, hpc, hstack⟩, hcfg⟩

theorem State.invUnder.storeBlock {c : Config} {s : State} (h : s.invUnder c) (base n : Nat)
    (hn : ∀ k < n, base + k < memSize) : (s.storeBlock base n).invUnder c := by
  induction n with
  | zero => exact h
  | succ n ih => exact (ih fun k hk => hn k (Nat.lt_succ_of_lt hk)).writeByte (hn n n.lt_succ_self) _

theorem State.invUnder.push {c : Config} {s : State} (h : s.invUnder c) (k : Fin 16) {w : Word} (hw : w.toNat ≤ 0x1000) :
    (s.push k w).invUnder c := by
  obtain ⟨⟨hmem, hlatch, hhalt, hpc, hstack⟩, hcfg⟩ := h
  refine ⟨⟨hmem, hlatch, hhalt, hpc, fun j => ?_⟩, hcfg⟩
  rw [State.push_stack, Vector.get_eq_getElem, Vector.getElem_set]
  split
  · exact hw
  · exact hstack j

theorem State.invUnder.halt {c : Config} {s : State} (h : s.invUnder c) (r : FaultRecord) : (s.halt r).invUnder c := by
  obtain ⟨⟨hmem, hlatch, -, hpc, hstack⟩, hcfg⟩ := h
  exact ⟨⟨hmem, hlatch, by simp [State.haltRecorded], hpc, hstack⟩, hcfg⟩

theorem State.invUnder.eventTaken {c : Config} {s : State} (h : s.invUnder c) : s.eventTaken.invUnder c :=
  h.congr rfl rfl rfl rfl rfl rfl rfl

theorem State.invUnder.tick {c : Config} {s : State} (h : s.invUnder c) : s.tick.invUnder c :=
  h.congr (by simp) (by simp) (by simp) (by simp) (by simp) (by simp) (by simp)

theorem State.invUnder.keyUp {c : Config} {s : State} (h : s.invUnder c) (k : KeyCode) : (s.keyUp k).invUnder c :=
  h.congr rfl rfl rfl rfl rfl rfl rfl

/-- The counter stays within 0..W when it starts again from 0. -/
theorem State.invUnder.keyDown {c : Config} {s : State} (h : s.invUnder c) (k : KeyCode) : (s.keyDown k).invUnder c := by
  unfold State.keyDown
  split
  · obtain ⟨⟨hmem, -, hhalt, hpc, hstack⟩, hcfg⟩ := h
    exact ⟨⟨hmem, Nat.zero_le _, hhalt, hpc, hstack⟩, hcfg⟩
  · exact h

/-- The counter saturates at W. -/
theorem State.invUnder.countCycle {c : Config} {s : State} (h : s.invUnder c) : s.countCycle.invUnder c := by
  obtain ⟨⟨hmem, -, hhalt, hpc, hstack⟩, hcfg⟩ := h
  exact ⟨⟨hmem, Nat.min_le_right _ _, hhalt, hpc, hstack⟩, hcfg⟩

/-! ## The invariant through an instruction and a step -/

/-- An instruction fetched at a legal pc keeps the invariant: a raise only halts, and a commit writes memory only where
the check allowed it, pushes at most 0x1000, and takes pc from a skip, a call, the stack or BNNN, each bounded. -/
theorem exec_invUnder {i : Instr} {c : Config} {s t : State} (hi : s.invUnder c) (hpc : s.pc.toNat ≤ 0xFFE)
    (h : exec i s = .next t) : t.invUnder c := by
  cases i with
  | jp nnn => cases h; exact hi.jump (by have := nnn.isLt; rw [addrOf_toNat]; omega)
  | jpV0 nnn =>
    cases h
    exact hi.jump (by have := nnn.isLt; have := (s.reg 0).isLt; rw [offsetTarget_toNat]; omega)
  | seImm | sneImm | seReg | sneReg | skp | sknp => cases h; exact hi.skipIf hpc _
  | ldImm | addImm | ldReg | orReg | andReg | xorReg | ldVDt => cases h; exact (hi.setReg _ _).advance hpc
  | addReg | subReg | shr | subn | shl => cases h; exact ((hi.setReg _ _).setReg _ _).advance hpc
  | rnd => cases h; exact (hi.consumeRand.setReg _ _).advance (by simpa using hpc)
  | ldVKey =>
    obtain ⟨-, rfl⟩ | ⟨k, -, rfl⟩ := exec_ldVKey_cases h
    · exact hi.jump (Nat.le_trans hpc (by decide))
    · exact (hi.setReg _ _).advance hpc
  | ldI | addI | ldGlyph => cases h; exact (hi.setIndex _).advance hpc
  | ldDtV => cases h; exact (hi.setTimer _).advance hpc
  | beep => cases h; exact (hi.emit _).advance hpc
  | cls => cases h; exact (hi.setScreen _).advance hpc
  | ret =>
    obtain ⟨-, rfl⟩ | ⟨k, -, rfl⟩ := exec_ret_cases h
    · exact hi.halt _
    · exact (hi.drop k).jump (Nat.le_trans (hi.stack_le k) (by decide))
  | call nnn =>
    obtain ⟨-, rfl⟩ | ⟨k, -, rfl⟩ := exec_call_cases h
    · exact hi.halt _
    · have hret : s.pcNext.toNat ≤ 0x1000 := by
        rw [State.pcNext, toNat_add_of_fetchable hpc (by decide)]
        exact Nat.add_le_add_right hpc 2
      exact (hi.push k hret).jump (by have := nnn.isLt; rw [addrOf_toNat]; omega)
  | drw =>
    obtain ⟨_, -, -, -, rfl⟩ | ⟨-, rfl⟩ := checked_next_cases h
    · exact hi.halt _
    · exact (((hi.setScreen _).setReg _ _).advance hpc).emit _
  | bcd =>
    obtain ⟨_, -, -, -, rfl⟩ | ⟨hok, rfl⟩ := checked_next_cases h
    · exact hi.halt _
    · have hmem (k : Nat) (hk : k < 3) : s.i.toNat + k < memSize := ((writable_iff _ _).1 (hok k hk)).1
      exact (((hi.writeByte (hmem 0 (by decide)) _).writeByte (hmem 1 (by decide)) _).writeByte
        (hmem 2 (by decide)) _).advance hpc
  | storeRegs =>
    obtain ⟨_, -, -, -, rfl⟩ | ⟨hok, rfl⟩ := checked_next_cases h
    · exact hi.halt _
    · have hblock := hi.storeBlock _ _ fun k hk => ((writable_iff _ _).1 (hok k hk)).1
      exact (hblock.setIndex _).advance (by simpa using hpc)
  | loadRegs =>
    obtain ⟨_, -, -, -, rfl⟩ | ⟨-, rfl⟩ := checked_next_cases h
    · exact hi.halt _
    · exact ((hi.loadBlock _ _).setIndex _).advance (by simpa using hpc)

theorem State.pc_le_of_fetchable {s : State} (h : s.fetchable = true) : s.pc.toNat ≤ 0xFFE := by
  simp only [State.fetchable, decide_eq_true_eq] at h
  exact h.2

/-- Settles O58, case by case along `step_cases`. -/
theorem stepKeepsTheInvariant : Obligations.StepKeepsTheInvariant := by
  intro s t hs h
  have hi : s.eventTaken.invUnder s.cfg := State.invUnder.eventTaken ⟨hs, rfl⟩
  show t.invUnder s.cfg
  obtain ⟨-, rfl⟩ | ⟨-, -, rfl⟩ | ⟨k, -, -, rfl⟩ | ⟨k, -, -, rfl⟩ | ⟨-, -, -, rfl⟩ | ⟨e, -, -, -, -, rfl⟩ |
    ⟨i, rest, u, -, -, hf, -, hu, hc⟩ := step_cases s t h
  · exact hi
  · exact hi.tick
  · exact hi.keyDown k
  · exact hi.keyUp k
  · exact hi.halt _
  · exact hi.halt _
  · have hui := exec_invUnder hi (State.pc_le_of_fetchable hf) hu
    obtain ⟨-, rfl⟩ | ⟨-, rfl⟩ := hc
    · exact hui.countCycle
    · exact hui

end Sys2Proof.Machine
end

section
/-! The word of a well-formed instruction decodes to it, a placed word is the fetched one, and what reset leaves
(10_state.md R60–R68; 20_memory.md R103, R105, R116; 30_encoding.md R142, R144). -/

namespace Sys2Proof

/-! ## Decoding an encoded instruction -/

/-- Format by format: the category selects the row, the row's last field the operation, and the other fields are the
operands. -/
theorem decodeWord_encode {i : Instr} (h : i.wellFormed = true) : decodeWord (encode i) = .ok i := by
  cases i with
  | cls | ret => rfl
  | jp | call | ldI | jpV0 => simp [encode, decodeWord, fieldC_packNNN, fieldNNN_packNNN]
  | seImm | sneImm | ldImm | addImm | rnd =>
    simp [encode, decodeWord, fieldC_packXNN, fieldX_packXNN, fieldNN_packXNN]
  | seReg | sneReg => simp [encode, decodeWord, fieldC_packXYN, fieldX_packXYN, fieldY_packXYN, fieldN_packXYN]
  | ldReg | orReg | andReg | xorReg | addReg | subReg | shr | subn | shl =>
    simp [encode, decodeWord, decodeAlu, fieldC_packXYN, fieldX_packXYN, fieldY_packXYN, fieldN_packXYN]
  | drw x y n =>
    have hn : n < 16 := of_decide_eq_true h
    simp [encode, decodeWord, fieldC_packXYN, fieldX_packXYN, fieldY_packXYN, fieldN_packXYN, hn]
  | skp | sknp => simp [encode, decodeWord, decodeKey, fieldC_packXNN, fieldX_packXNN, lowField_packXNN]
  | ldVDt | ldVKey | ldDtV | beep | addI | ldGlyph | bcd | storeRegs | loadRegs =>
    simp [encode, decodeWord, decodeMisc, fieldC_packXNN, fieldX_packXNN, lowField_packXNN]

namespace Machine

/-! ## Placing a word where the machine fetches -/

/-- The pc is one that may be fetched from already, or it is set to 0x200. -/
theorem State.aboutToFetch_pc_le (s : State) : s.aboutToFetch.pc.toNat ≤ 0xFFE := by
  change (if s.fetchable then s.pc else 0x200).toNat ≤ 0xFFE
  split
  · next hf => exact State.pc_le_of_fetchable hf
  · decide

/-- A 16-bit table word is placed as it is. -/
theorem State.withFetchWord_toNat (s : State) (w : Word) :
    s.withFetchWord 16 w.toNat = s.aboutToFetch.placeWord w := by
  rw [State.withFetchWord, State.withTableWord, Nat.mod_eq_of_lt w.isLt, BitVec.ofNat_toNat, BitVec.setWidth_eq]

/-- The second write leaves the first byte, so the fetch reads both bytes of the word (20_memory.md R105, R116). -/
theorem State.fetchWord_placeWord {s : State} (w : Word) (hm : s.memCanonical) (hpc : s.pc.toNat ≤ 0xFFE) :
    (s.placeWord w).fetchWord = w := by
  have hfirst := s.wf_writeByte s.pc.toNat (highByte w) (Nat.lt_of_le_of_lt hpc (by decide)) hm
  have hhigh : (s.placeWord w).readByte s.pc.toNat = highByte w := by
    rw [State.placeWord, State.readByte_writeByte _ _ _ _ hfirst, if_neg (Nat.succ_ne_self _).symm,
      State.readByte_writeByte _ _ _ _ hm, if_pos rfl]
  have hlow : (s.placeWord w).readByte (s.pc.toNat + 1) = lowByte w := by
    rw [State.placeWord, State.readByte_writeByte _ _ _ _ hfirst, if_pos rfl]
  change wordOfBytes ((s.placeWord w).readByte s.pc.toNat) ((s.placeWord w).readByte (s.pc.toNat + 1)) = w
  rw [hhigh, hlow, wordOfBytes_highByte_lowByte]

/-- Settles O12: the fetched word is the placed one, and the placed one decodes to its instruction. -/
theorem storedInstructionIsFetched : Obligations.StoredInstructionIsFetched := by
  intro s i hm hi
  have hword : (s.aboutToFetch.placeWord (encode i)).fetchWord = encode i :=
    State.fetchWord_placeWord (encode i) hm s.aboutToFetch_pc_le
  rw [State.withFetchWord_toNat, State.decode_fetchBytes, hword, decodeWord_encode hi]

/-! ## What reset leaves -/

/-- Reset lists no byte, so every address reads as its reset contents. -/
theorem State.readByte_reset (a : Nat) : State.reset.readByte a = resetByte defaultConfig a := Memory.read_nil _ a

/-- Settles O7: the memory clauses are the reset contents under the default parameters, every other clause is a field of
`State.resetWith`. -/
theorem resetLeaves : Obligations.ResetLeaves := by
  refine ⟨?regs, rfl, rfl, rfl, rfl, ?stack, Framebuffer.pixel_clear, rfl, rfl, rfl, rfl, ?font, ?fill,
    rfl, rfl, rfl, rfl, rfl, rfl⟩
  case regs => exact Vector.get_replicate 16 0
  case stack => exact Vector.get_replicate 16 0
  case font => exact fun a ha => (State.readByte_reset a).trans (resetByte_of_lt_fontSize defaultConfig a ha)
  case fill => exact fun a ha => (State.readByte_reset a).trans (resetByte_of_fontSize_le defaultConfig a ha)

end Machine

end Sys2Proof
end

section
/-! Decoder, encoder and opcode table agree (30_encoding.md R140–R146): the bytes of an instruction decode to it, a word
that decodes is packed from its own fields, and the one row that can cover a word is the row its category selects. -/

namespace Sys2Proof

/-- Settles O2: the two bytes joined are the word, and the word decodes to its instruction. -/
theorem decodeInvertsEncode : Obligations.DecodeInvertsEncode := by
  intro i rest hi
  simp only [encodeBytes, List.cons_append, List.nil_append, decode, wordOfBytes_highByte_lowByte, decodeWord_encode hi]

/-- Settles O1: sixteen fixed words, evaluated. -/
theorem tableWordsDecode : Obligations.TableWordsDecode := by
  unfold Obligations.TableWordsDecode
  decide

/-! ## A word is packed from its own fields -/

theorem fieldC_lt (w : Word) : fieldC w < 16 := Nat.mod_lt _ (by decide)

theorem fieldN_lt (w : Word) : fieldN w < 16 := Nat.mod_lt _ (by decide)

theorem fieldNN_toNat (w : Word) : (fieldNN w).toNat = field w 0 8 := by
  simp only [fieldNN, field, BitVec.toNat_ofNat, Nat.mod_mod]

theorem packNNN_fields {w : Word} {c : Nat} (hc : fieldC w = c) : packNNN c (fieldNNN w) = w := by
  subst hc
  have hw := w.isLt
  apply BitVec.eq_of_toNat_eq
  rw [packNNN_toNat _ _ (fieldC_lt w)]
  simp only [fieldC, fieldNNN, field, BitVec.toNat_ofNat]
  omega

theorem packXNN_fields {w : Word} {c : Nat} {nn : Byte} (hc : fieldC w = c) (hnn : field w 0 8 = nn.toNat) :
    packXNN c (fieldX w) nn = w := by
  subst hc
  have hw := w.isLt
  apply BitVec.eq_of_toNat_eq
  rw [packXNN_toNat _ _ _ (fieldC_lt w), ← hnn]
  simp only [fieldC, fieldX, field, regOf_val]
  omega

theorem packXYN_fields {w : Word} {c n : Nat} (hc : fieldC w = c) (hn : fieldN w = n) :
    packXYN c (fieldX w) (fieldY w) n = w := by
  subst hc hn
  have hw := w.isLt
  apply BitVec.eq_of_toNat_eq
  rw [packXYN_toNat _ _ _ _ (fieldC_lt w) (fieldN_lt w)]
  simp only [fieldC, fieldX, fieldY, fieldN, field, regOf_val]
  omega

/-- A word of category 0 is its low 12 bits. -/
theorem field_0_12_of_fieldC_eq_zero {w : Word} (hc : fieldC w = 0) : field w 0 12 = w.toNat := by
  have hw := w.isLt
  simp only [fieldC, field] at hc ⊢
  omega

/-! ## Encoding a decoded instruction -/

/-- The instruction has a word, and it is `w`. -/
def HasWord (i : Instr) (w : Word) : Prop := i.wellFormed = true ∧ encode i = w

section
variable {w : Word} {i : Instr}

theorem hasWord_of_decodeSystem (hc : fieldC w = 0x0) (h : decodeSystem w = .ok i) : HasWord i w := by
  unfold decodeSystem at h
  rw [field_0_12_of_fieldC_eq_zero hc] at h
  split at h <;> cases h
  all_goals exact ⟨rfl, BitVec.eq_of_toNat_eq (Eq.symm (by assumption))⟩

theorem hasWord_of_decodeAlu (hc : fieldC w = 0x8) (h : decodeAlu w = .ok i) : HasWord i w := by
  unfold decodeAlu at h
  split at h <;> cases h
  all_goals exact ⟨rfl, packXYN_fields hc (by assumption)⟩

theorem hasWord_of_decodeKey (hc : fieldC w = 0xE) (h : decodeKey w = .ok i) : HasWord i w := by
  unfold decodeKey at h
  split at h <;> cases h
  all_goals exact ⟨rfl, packXNN_fields hc (by assumption)⟩

theorem hasWord_of_decodeMisc (hc : fieldC w = 0xF) (h : decodeMisc w = .ok i) : HasWord i w := by
  unfold decodeMisc at h
  split at h <;> cases h
  all_goals exact ⟨rfl, packXNN_fields hc (by assumption)⟩

/-- The arms of `decodeWord`, grouped by format (R142); `h_n` is the arm of category n - 1. -/
theorem hasWord_of_decodeWord (h : decodeWord w = .ok i) : HasWord i w := by
  have hcat := fieldC_lt w
  unfold decodeWord at h
  split at h
  case h_1 hc => exact hasWord_of_decodeSystem hc h
  case h_9 hc => exact hasWord_of_decodeAlu hc h
  case h_15 hc => exact hasWord_of_decodeKey hc h
  case h_16 =>
    simp only [imp_false] at *
    exact hasWord_of_decodeMisc (by omega) h
  case h_2 hc | h_3 hc | h_11 hc | h_12 hc =>
    cases h
    exact ⟨rfl, packNNN_fields hc⟩
  case h_4 hc | h_5 hc | h_7 hc | h_8 hc | h_13 hc =>
    cases h
    exact ⟨rfl, packXNN_fields hc (fieldNN_toNat w).symm⟩
  case h_6 hc | h_10 hc =>
    split at h <;> cases h
    exact ⟨rfl, packXYN_fields hc (by assumption)⟩
  case h_14 hc =>
    cases h
    exact ⟨decide_eq_true (fieldN_lt w), packXYN_fields hc rfl⟩

end

/-- Settles O3: packing the decoded fields again gives every bit of the word. -/
theorem encodeInvertsDecode : Obligations.EncodeInvertsDecode := fun _ _ => hasWord_of_decodeWord

/-! ## The row a word's category selects -/

/-- The mask of the rows of a category (`opcodeTable_mask` ties it to the table): the category, and the field that
selects the operation in it. -/
def categoryMask : Nat → Word
  | 0x0 => 0xFFFF
  | 0x5 | 0x8 | 0x9 => 0xF00F
  | 0xE | 0xF => 0xF0FF
  | _ => 0xF000

/-- The one row that can cover the word (`eq_rowOf_of_covers`); the table may or may not hold it. -/
def rowOf (w : Word) : Row := ⟨w &&& categoryMask (fieldC w), categoryMask (fieldC w)⟩

theorem opcodeTable_mask : ∀ r ∈ opcodeTable, r.mask = categoryMask (fieldC r.pattern) := by decide

/-- A mask that is all ones on a field keeps the field. -/
theorem field_and_of_ones (w : Word) {m : Word} {lo len : Nat} (hm : field m lo len = 2 ^ len - 1) :
    field (w &&& m) lo len = field w lo len := by
  have hlt : field w lo len < 2 ^ len := Nat.mod_lt _ (Nat.two_pow_pos len)
  calc field (w &&& m) lo len
      = field w lo len &&& field m lo len := by
        simp only [field, BitVec.toNat_and, Nat.and_div_two_pow, Nat.and_mod_two_pow]
    _ = field w lo len := by rw [hm, Nat.and_two_pow_sub_one_eq_mod, Nat.mod_eq_of_lt hlt]

theorem fieldC_and_categoryMask (w : Word) (c : Nat) : fieldC (w &&& categoryMask c) = fieldC w := by
  refine field_and_of_ones w ?_
  unfold categoryMask
  split <;> rfl

theorem eq_rowOf_of_covers {r : Row} {w : Word} (hr : r ∈ opcodeTable) (h : r.covers w = true) : r = rowOf w := by
  have hp : w &&& r.mask = r.pattern := of_decide_eq_true h
  have hm : r.mask = categoryMask (fieldC w) := by
    rw [opcodeTable_mask r hr, ← hp, opcodeTable_mask r hr, fieldC_and_categoryMask]
  calc r = ⟨w &&& r.mask, r.mask⟩ := by rw [hp]
    _ = rowOf w := by rw [hm, rowOf]

/-- Settles O5: each of the two rows is the one the word's category selects. -/
theorem tableRowsDoNotOverlap : Obligations.TableRowsDoNotOverlap :=
  fun _ _ _ hr hq hrw hqw => (eq_rowOf_of_covers hr hrw).trans (eq_rowOf_of_covers hq hqw).symm

/-! ## Whether a word decodes depends on its row only -/

theorem exists_eq_ok_iff_isOk {ε α : Type} (x : Except ε α) : (∃ a, x = .ok a) ↔ x.isOk = true := by
  cases x <;> simp [Except.isOk, Except.toBool]

theorem isOk_decodeSystem_and (w : Word) : (decodeSystem (w &&& 0xFFFF)).isOk = (decodeSystem w).isOk := by
  unfold decodeSystem
  rw [field_and_of_ones w rfl]

theorem isOk_decodeAlu_and (w : Word) : (decodeAlu (w &&& 0xF00F)).isOk = (decodeAlu w).isOk := by
  unfold decodeAlu fieldN
  rw [field_and_of_ones w rfl]
  split <;> rfl

theorem isOk_decodeKey_and (w : Word) : (decodeKey (w &&& 0xF0FF)).isOk = (decodeKey w).isOk := by
  unfold decodeKey
  rw [field_and_of_ones w rfl]
  split <;> rfl

theorem isOk_decodeMisc_and (w : Word) : (decodeMisc (w &&& 0xF0FF)).isOk = (decodeMisc w).isOk := by
  unfold decodeMisc
  rw [field_and_of_ones w rfl]
  split <;> rfl

/-- The arms of `decodeWord`: in each, the mask of the category keeps the field the arm tests, if it tests one. -/
theorem isOk_decodeWord_and_categoryMask (w : Word) :
    (decodeWord (w &&& categoryMask (fieldC w))).isOk = (decodeWord w).isOk := by
  have hcat := fieldC_lt w
  unfold decodeWord
  rw [fieldC_and_categoryMask]
  split
  case h_1 hc => rw [hc]; exact isOk_decodeSystem_and w
  case h_9 hc => rw [hc]; exact isOk_decodeAlu_and w
  case h_15 hc => rw [hc]; exact isOk_decodeKey_and w
  case h_16 =>
    simp only [imp_false] at *
    have hc : fieldC w = 0xF := by omega
    rw [hc]
    exact isOk_decodeMisc_and w
  case h_6 hc | h_10 hc =>
    have hn : fieldN (w &&& 0xF00F) = fieldN w := field_and_of_ones w rfl
    simp only [hc, categoryMask, hn]
    split <;> rfl
  all_goals rfl

theorem isOk_decodeWord_pattern : ∀ r ∈ opcodeTable, (decodeWord r.pattern).isOk = true := by decide

theorem isOk_decodeWord_of_covers {r : Row} {w : Word} (hr : r ∈ opcodeTable) (h : r.covers w = true) :
    (decodeWord w).isOk = true := by
  rw [← isOk_decodeWord_and_categoryMask]
  change (decodeWord (rowOf w).pattern).isOk = true
  rw [← eq_rowOf_of_covers hr h]
  exact isOk_decodeWord_pattern r hr

/-! ## The row of an instruction -/

open Laws.OpcodeRow in
/-- `Laws.OpcodeRow`, one lemma a constructor, for every instruction. -/
theorem opcodeRow_statement : ∀ i, Statement i
  | .cls => cls
  | .ret => ret
  | .jp nnn => jp nnn
  | .call nnn => call nnn
  | .seImm x nn => seImm x nn
  | .sneImm x nn => sneImm x nn
  | .seReg x y => seReg x y
  | .ldImm x nn => ldImm x nn
  | .addImm x nn => addImm x nn
  | .ldReg x y => ldReg x y
  | .orReg x y => orReg x y
  | .andReg x y => andReg x y
  | .xorReg x y => xorReg x y
  | .addReg x y => addReg x y
  | .subReg x y => subReg x y
  | .shr x y => shr x y
  | .subn x y => subn x y
  | .shl x y => shl x y
  | .sneReg x y => sneReg x y
  | .ldI nnn => ldI nnn
  | .jpV0 nnn => jpV0 nnn
  | .rnd x nn => rnd x nn
  | .drw x y n => drw x y n
  | .skp x => skp x
  | .sknp x => sknp x
  | .ldVDt x => ldVDt x
  | .ldVKey x => ldVKey x
  | .ldDtV x => ldDtV x
  | .beep x => beep x
  | .addI x => addI x
  | .ldGlyph x => ldGlyph x
  | .bcd x => bcd x
  | .storeRegs x => storeRegs x
  | .loadRegs x => loadRegs x

theorem exists_row_covers_of_decodeWord {w : Word} {i : Instr} (h : decodeWord w = .ok i) :
    ∃ r ∈ opcodeTable, r.covers w = true := by
  obtain ⟨hwf, rfl⟩ := hasWord_of_decodeWord h
  obtain ⟨r, hr, hcovers⟩ := opcodeRow_statement i hwf
  exact ⟨r, List.mem_of_getElem? hr, hcovers⟩

/-- Settles O4: a word that decodes is its instruction's word, which lies in the instruction's row; and a covered word
decodes as the pattern of its row does. -/
theorem decodeAgreesWithTable : Obligations.DecodeAgreesWithTable := by
  intro w
  constructor
  · rintro ⟨i, hi⟩
    exact exists_row_covers_of_decodeWord hi
  · rintro ⟨r, hr, hcovers⟩
    exact (exists_eq_ok_iff_isOk _).2 (isOk_decodeWord_of_covers hr hcovers)

end Sys2Proof
end

section
/-! System instructions, jump and call (40_system_flow.md R200–R204): SP as a number, the stack after a push and a drop,
the halt a fatal error leaves, and from these the obligations about 00E0, 00EE, 1NNN and 2NNN. -/

namespace Sys2Proof.Machine

/-! ## SP as a number -/

/-- SP is −1 or the index of an entry (10_state.md R48). -/
theorem State.spInt_cases (s : State) :
    (s.sp = none ∧ s.spInt = -1) ∨ ∃ k : Fin 16, s.sp = some k ∧ s.spInt = k.val := by
  cases hsp : s.sp with
  | none => exact .inl ⟨rfl, by simp [State.spInt, hsp]⟩
  | some k => exact .inr ⟨k, rfl, by simp [State.spInt, hsp]⟩

theorem State.neg_one_le_spInt (s : State) : -1 ≤ s.spInt := by
  obtain ⟨-, h⟩ | ⟨k, -, h⟩ := s.spInt_cases <;> omega

theorem State.sp_eq_none_of_spInt {s : State} (h : s.spInt = -1) : s.sp = none := by
  obtain ⟨hsp, -⟩ | ⟨k, -, hk⟩ := s.spInt_cases
  · exact hsp
  · omega

theorem State.sp_eq_some_of_spInt {s : State} {k : Fin 16} (h : s.spInt = k.val) : s.sp = some k := by
  obtain ⟨-, hempty⟩ | ⟨j, hsp, hj⟩ := s.spInt_cases
  · omega
  · rw [hsp, Fin.ext (show j.val = k.val by omega)]

/-- Below a full stack a push takes the entry after SP. -/
theorem State.exists_nextSlot_of_spInt_lt {s : State} (h : s.spInt < 15) :
    ∃ k : Fin 16, nextSlot s.sp = some k ∧ (k.val : Int) = s.spInt + 1 := by
  obtain ⟨hsp, hempty⟩ | ⟨j, hsp, hj⟩ := s.spInt_cases
  · exact ⟨0, (nextSlot_eq_some _ _).2 (.inl ⟨hsp, rfl⟩), by simp [hempty]⟩
  · exact ⟨⟨j.val + 1, by omega⟩, (nextSlot_eq_some _ _).2 (.inr ⟨j, hsp, rfl⟩), by simp [hj]⟩

/-! ## The stack after a push and a drop -/

theorem State.stack_get_push (s : State) (k j : Fin 16) (w : Word) :
    (s.push k w).stack.get j = if j = k then w else s.stack.get j := by
  simp only [State.push_stack, Vector.get_eq_getElem, Vector.getElem_set, Fin.ext_iff, eq_comm]

theorem State.spInt_drop (s : State) (k : Fin 16) : (s.drop k).spInt = (k.val : Int) - 1 := by
  by_cases hk : k.val = 0
  · simp [State.spInt, slotBelow, hk]
  · simp only [State.spInt, State.drop_sp, slotBelow, hk, if_false]
    omega

/-! ## The halt a fatal error leaves -/

theorem onlyChanged_halt (s : State) (r : FaultRecord) : onlyChanged [.run, .output] s (s.halt r) := by
  intro p hp
  cases p <;> simp_all [Part.same]

theorem haltedWith_halt (kind : ErrorKind) (op : Option Word) (addr : Option Nat) (s : State) :
    haltedWith kind op addr s (s.halt { kind := kind, pc := s.pc, op := op, addr := addr }) :=
  ⟨rfl, rfl, rfl, onlyChanged_halt s _⟩

/-! ## 00EE and 2NNN, case by case -/

theorem exec_ret_of_empty {s : State} (h : s.sp = none) :
    exec .ret s = .next (s.halt { kind := .stackUnderflow, pc := s.pc, op := some (encode .ret), addr := none }) := by
  change execRet s = _
  rw [execRet, h, raise_eq]

theorem exec_ret_of_newest {s : State} {k : Fin 16} (h : s.sp = some k) :
    exec .ret s = .next ((s.drop k).jump (s.stack.get k)) := by
  change execRet s = _
  rw [execRet, h]

theorem exec_call_of_full {s : State} (nnn : Addr12) (h : nextSlot s.sp = none) :
    exec (.call nnn) s =
      .next (s.halt { kind := .stackOverflow, pc := s.pc, op := some (encode (.call nnn)), addr := none }) := by
  change execCall nnn s = _
  rw [execCall, h, raise_eq]

theorem exec_call_of_slot {s : State} (nnn : Addr12) {k : Fin 16} (h : nextSlot s.sp = some k) :
    exec (.call nnn) s = .next ((s.push k s.pcNext).jump (addrOf nnn)) := by
  change execCall nnn s = _
  rw [execCall, h]

/-! ## The obligations -/

/-- Settles O18: the clear grid, then the advance. -/
theorem clsClearsTheScreen : Obligations.ClsClearsTheScreen := by
  intro s
  have hclear : onlyChanged [.screen, .counter] s { s with fb := Framebuffer.clear } :=
    (onlyChanged_refl _ s).andThen (onlyChanged_setScreen s _)
  exact ⟨_, rfl, Framebuffer.pixel_clear, rfl, hclear.andThen (onlyChanged_jump _ _)⟩

/-- Settles O20: `addrOf` keeps the number. -/
theorem jpSetsThePc : Obligations.JpSetsThePc := by
  intro s nnn
  exact ⟨_, rfl, addrOf_toNat nnn, onlyChanged_jump s _⟩

/-- Settles O19, on an empty stack and on one with a newest entry. -/
theorem retPopsTheReturnAddress : Obligations.RetPopsTheReturnAddress := by
  intro s
  constructor
  · intro hempty
    exact ⟨_, exec_ret_of_empty (State.sp_eq_none_of_spInt hempty), haltedWith_halt _ _ _ s⟩
  · intro k hk
    have hframe : onlyChanged [.counter, .stack] s (s.drop k) :=
      (onlyChanged_refl _ s).andThen (onlyChanged_drop s k)
    exact ⟨_, exec_ret_of_newest (State.sp_eq_some_of_spInt hk), rfl, (s.spInt_drop k).trans (by rw [hk]),
      fun _ => rfl, hframe.andThen (onlyChanged_jump _ _)⟩

/-- Settles O21, on a full stack and on one with room for the push. -/
theorem callPushesThePostFetchPc : Obligations.CallPushesThePostFetchPc := by
  intro s nnn
  constructor
  · intro hfull
    have hsp : s.sp = some 15 := State.sp_eq_some_of_spInt hfull
    have hword : encode (.call nnn) = BitVec.ofNat 16 (0x2000 + nnn.toNat) := rfl
    exact ⟨_, exec_call_of_full nnn ((nextSlot_eq_none _).2 hsp), hword ▸ haltedWith_halt _ _ _ s⟩
  · intro hroom
    obtain ⟨k, hslot, hk⟩ := State.exists_nextSlot_of_spInt_lt hroom
    have hframe : onlyChanged [.counter, .stack] s (s.push k s.pcNext) :=
      (onlyChanged_refl _ s).andThen (onlyChanged_push s k _)
    refine ⟨_, exec_call_of_slot nnn hslot, addrOf_toNat nnn, hk, fun j => ?_, hframe.andThen (onlyChanged_jump _ _)⟩
    rw [State.jump_stack, State.stack_get_push, State.pcNext]
    exact if_congr (by rw [← hk, Fin.ext_iff, Int.ofNat_inj]) rfl rfl

/-- Settles O22: the entry that O21 says the call wrote is the one that O19 says the return pops. -/
theorem callThenRetComesBack : Obligations.CallThenRetComesBack := by
  intro s nnn hroom
  obtain ⟨t, hcall, -, htsp, htstack, htframe⟩ := (callPushesThePostFetchPc s nnn).2 hroom
  have hnewest (k : Fin 16) (hk : (k.val : Int) = t.spInt) : t.stack.get k = s.pc + 2 := by
    rw [htstack, if_pos (hk.trans htsp)]
  obtain ⟨k, hk⟩ : ∃ k : Fin 16, t.spInt = k.val := by
    have := s.neg_one_le_spInt
    obtain ⟨-, hempty⟩ | ⟨k, -, hk⟩ := t.spInt_cases
    · omega
    · exact ⟨k, hk⟩
  obtain ⟨u, hret, hupc, husp, -, huframe⟩ := (retPopsTheReturnAddress t).2 k hk
  exact ⟨t, u, hcall, hret, htsp, hnewest, hupc.trans (hnewest k hk.symm), by omega, htframe.andThen huframe⟩

end Sys2Proof.Machine
end

section
/-! Skips on bytes, immediate load and immediate add (41_skip_load_imm.md R230–R235; 43_reg_skip_index_jump_rand.md
R300): where a skip on two bytes leaves the pc, what a register write without a flag answers, and from these the
obligations about 3XNN–7XNN and 9XY0. -/

namespace Sys2Proof.Machine

/-! ## The pc after a skip on two bytes -/

theorem State.skipIf_eq_pc (s : State) (a b : Byte) :
    (s.skipIf (decide (a = b))).pc = if a.toNat = b.toNat then s.pc + 4 else s.pc + 2 := by
  simp only [State.skipIf_pc, decide_eq_true_eq, BitVec.toNat_inj]

theorem State.skipIf_ne_pc (s : State) (a b : Byte) :
    (s.skipIf (decide (a ≠ b))).pc = if a.toNat = b.toNat then s.pc + 2 else s.pc + 4 := by
  simp only [State.skipIf_pc, decide_eq_true_eq, BitVec.toNat_inj, ne_eq, ite_not]

/-! ## A register write without a flag -/

theorem addBytes_toNat (a b : Byte) : (addBytes a b).toNat = (a.toNat + b.toNat) % 256 :=
  BitVec.toNat_ofNat _ _

theorem regsKeptBut_setReg (s : State) (x : Reg) (b : Byte) : regsKeptBut [x] s (s.setReg x b) :=
  fun r hr => State.reg_setReg_ne s x r b (List.ne_of_not_mem_cons hr)

/-- The instructions that write one register and no flag all end so, X = F included (10_state.md R40). -/
theorem writeResult_next (x : Reg) (b : Byte) (s : State) :
    ∃ t, writeResult x b s = .next t ∧ t.reg x = b ∧ t.pc = s.pc + 2 ∧
      regsKeptBut [x] s t ∧ onlyChanged [.regs, .counter] s t :=
  ⟨(s.setReg x b).advance, rfl, State.reg_setReg_same s x b, rfl, regsKeptBut_setReg s x b,
    ((onlyChanged_refl _ s).thenSetReg x b).thenJump _⟩

/-! ## The obligations -/

/-- Settles O23: both skips compare V[X] and NN as bytes. -/
theorem skipsOnAnImmediate : Obligations.SkipsOnAnImmediate := by
  intro s x nn
  constructor
  · exact ⟨_, rfl, s.skipIf_eq_pc (s.reg x) nn, onlyChanged_skipIf s _⟩
  · exact ⟨_, rfl, s.skipIf_ne_pc (s.reg x) nn, onlyChanged_skipIf s _⟩

/-- Settles O24: both skips compare V[X] and V[Y] as bytes. -/
theorem skipsOnRegisters : Obligations.SkipsOnRegisters := by
  intro s x y
  constructor
  · exact ⟨_, rfl, s.skipIf_eq_pc (s.reg x) (s.reg y), onlyChanged_skipIf s _⟩
  · exact ⟨_, rfl, s.skipIf_ne_pc (s.reg x) (s.reg y), onlyChanged_skipIf s _⟩

/-- Settles O26: the load is the write of NN. -/
theorem loadsAnImmediate : Obligations.LoadsAnImmediate := by
  intro s x nn
  exact writeResult_next x nn s

/-- Settles O27: the add is the write of the sum's low byte. -/
theorem addsAnImmediateWithoutFlag : Obligations.AddsAnImmediateWithoutFlag := by
  intro s x nn
  obtain ⟨t, hnext, hsum, hpc, hregs, hframe⟩ := writeResult_next x (addBytes (s.reg x) nn) s
  exact ⟨t, hnext, by rw [hsum, addBytes_toNat], hpc, hregs, hframe⟩

end Sys2Proof.Machine
end

section
/-! The register ALU (42_alu.md R260–R270): the flags and results as numbers, what a result with a flag leaves, and from
these the obligations about 8XY0–8XYE. -/

namespace Sys2Proof.Machine

/-! ## Flags and results as numbers -/

theorem flag_toNat (p : Prop) [Decidable p] : (flag (decide p)).toNat = if p then 1 else 0 := by
  by_cases hp : p <;> simp [flag, hp]

theorem carryFlag_toNat (a b : Byte) : (carryFlag a b).toNat = if a.toNat + b.toNat > 255 then 1 else 0 :=
  flag_toNat _

theorem noBorrowFlag_toNat (a b : Byte) : (noBorrowFlag a b).toNat = if a.toNat > b.toNat then 1 else 0 :=
  flag_toNat _

theorem shiftedOutRight_toNat (a : Byte) : (shiftedOutRight a).toNat = a.toNat % 2 :=
  (BitVec.toNat_ofNat _ _).trans (Nat.mod_eq_of_lt (by omega))

theorem shiftedOutLeft_toNat (a : Byte) : (shiftedOutLeft a).toNat = a.toNat / 128 :=
  (BitVec.toNat_ofNat _ _).trans (Nat.mod_eq_of_lt (by omega))

theorem shiftRight_toNat (a : Byte) : (shiftRight a).toNat = a.toNat / 2 :=
  (BitVec.toNat_ofNat _ _).trans (Nat.mod_eq_of_lt (by omega))

theorem shiftLeft_toNat (a : Byte) : (shiftLeft a).toNat = a.toNat * 2 % 256 :=
  BitVec.toNat_ofNat _ _

/-- The byte holds the exact difference reduced mod 256, never a truncated one (R270). -/
theorem subBytes_toNat (a b : Byte) : ((subBytes a b).toNat : Int) = ((a.toNat : Int) - b.toNat) % 256 := by
  rw [subBytes, BitVec.toNat_ofInt]
  exact Int.toNat_of_nonneg (Int.emod_nonneg _ (by decide))

/-! ## A register write with a flag -/

/-- The instructions that set a flag all end so. VF is written last, so it holds the flag with X = F too (R260). -/
theorem writeResultFlag_next (x : Reg) (b f : Byte) (s : State) :
    ∃ t, writeResultFlag x b f s = .next t ∧ (x ≠ regF → t.reg x = b) ∧ t.reg regF = f ∧ t.pc = s.pc + 2 ∧
      regsKeptBut [x, regF] s t ∧ onlyChanged [.regs, .counter] s t := by
  refine ⟨((s.setReg x b).setReg regF f).advance, rfl, ?result, State.reg_setReg_same _ _ f, rfl, ?kept,
    (((onlyChanged_refl _ s).thenSetReg x b).thenSetReg regF f).thenJump _⟩
  case result =>
    intro hx
    exact (State.reg_setReg_ne _ regF x f hx).trans (State.reg_setReg_same s x b)
  case kept =>
    intro r hr
    have hx : r ≠ x := List.ne_of_not_mem_cons hr
    have hF : r ≠ regF := List.ne_of_not_mem_cons (List.not_mem_of_not_mem_cons hr)
    exact (State.reg_setReg_ne _ regF r f hF).trans (State.reg_setReg_ne s x r b hx)

/-- 8XY5 and 8XY7 differ in which operand is the minuend only (R266, R268). -/
theorem writeResultFlag_subBytes (x : Reg) (a b : Byte) (s : State) :
    ∃ t, writeResultFlag x (subBytes a b) (noBorrowFlag a b) s = .next t ∧
      (x ≠ regF → ((t.reg x).toNat : Int) = ((a.toNat : Int) - b.toNat) % 256) ∧
      (t.reg regF).toNat = (if a.toNat > b.toNat then 1 else 0) ∧ t.pc = s.pc + 2 ∧
      regsKeptBut [x, regF] s t ∧ onlyChanged [.regs, .counter] s t := by
  obtain ⟨t, hnext, hdiff, hflag, hrest⟩ := writeResultFlag_next x (subBytes a b) (noBorrowFlag a b) s
  exact ⟨t, hnext, fun hx => by rw [hdiff hx, subBytes_toNat], by rw [hflag, noBorrowFlag_toNat], hrest⟩

/-! ## The obligations -/

/-- Settles O28: each is one write of the bitwise result, with no flag. -/
theorem copiesAndLogic : Obligations.CopiesAndLogic := by
  intro s x y
  refine ⟨writeResult_next x (s.reg y) s, ?or, ?and, ?xor⟩
  case or =>
    obtain ⟨t, hnext, hreg, hrest⟩ := writeResult_next x (s.reg x ||| s.reg y) s
    exact ⟨t, hnext, fun b => by rw [hreg, BitVec.getLsbD_or], hrest⟩
  case and =>
    obtain ⟨t, hnext, hreg, hrest⟩ := writeResult_next x (s.reg x &&& s.reg y) s
    exact ⟨t, hnext, fun b => by rw [hreg, BitVec.getLsbD_and], hrest⟩
  case xor =>
    obtain ⟨t, hnext, hreg, hrest⟩ := writeResult_next x (s.reg x ^^^ s.reg y) s
    exact ⟨t, hnext, fun b => by rw [hreg, BitVec.getLsbD_xor], hrest⟩

/-- Settles O29: the result is the sum's low byte, the flag the carry out of it. -/
theorem addsWithCarry : Obligations.AddsWithCarry := by
  intro s x y
  obtain ⟨t, hnext, hsum, hflag, hrest⟩ :=
    writeResultFlag_next x (addBytes (s.reg x) (s.reg y)) (carryFlag (s.reg x) (s.reg y)) s
  exact ⟨t, hnext, fun hx => by rw [hsum hx, addBytes_toNat], by rw [hflag, carryFlag_toNat], hrest⟩

/-- Settles O30: the minuend is V[X]. -/
theorem subtractsWithNoBorrowFlag : Obligations.SubtractsWithNoBorrowFlag := by
  intro s x y
  exact writeResultFlag_subBytes x (s.reg x) (s.reg y) s

/-- Settles O31: the minuend is V[Y]. -/
theorem subtractsInReverse : Obligations.SubtractsInReverse := by
  intro s x y
  exact writeResultFlag_subBytes x (s.reg y) (s.reg x) s

/-- Settles O32: the result and the flag are the two parts of V[X] before the shift; neither shift reads V[Y]. -/
theorem shiftsByOne : Obligations.ShiftsByOne := by
  intro s x y
  refine ⟨?right, ?left, fun _ => ⟨rfl, rfl⟩⟩
  case right =>
    obtain ⟨t, hnext, hshift, hflag, hrest⟩ :=
      writeResultFlag_next x (shiftRight (s.reg x)) (shiftedOutRight (s.reg x)) s
    exact ⟨t, hnext, fun hx => by rw [hshift hx, shiftRight_toNat], by rw [hflag, shiftedOutRight_toNat], hrest⟩
  case left =>
    obtain ⟨t, hnext, hshift, hflag, hrest⟩ :=
      writeResultFlag_next x (shiftLeft (s.reg x)) (shiftedOutLeft (s.reg x)) s
    exact ⟨t, hnext, fun hx => by rw [hshift hx, shiftLeft_toNat], by rw [hflag, shiftedOutLeft_toNat], hrest⟩

end Sys2Proof.Machine
end

section
/-! Index load and offset jump (43_reg_skip_index_jump_rand.md R301, R302): NNN and V0 + NNN are exact as 16-bit words,
and from this the obligations about ANNN and BNNN. -/

namespace Sys2Proof.Machine

/-- Settles O33: `addrOf` keeps the number, whatever address it is; the advance ends the instruction. -/
theorem loadsTheIndex : Obligations.LoadsTheIndex := by
  intro s nnn
  have hindex : onlyChanged [.index, .counter] s (s.setIndex (addrOf nnn)) :=
    (onlyChanged_refl _ s).andThen (onlyChanged_setIndex s _)
  exact ⟨_, rfl, addrOf_toNat nnn, rfl, hindex.andThen (onlyChanged_jump _ _)⟩

/-- Settles O34: the sum of a byte and a 12-bit address fits pc, so nothing of it is masked off. -/
theorem jumpsWithOffset : Obligations.JumpsWithOffset := by
  intro s nnn
  exact ⟨_, rfl, offsetTarget_toNat (s.reg 0) nnn, onlyChanged_jump s _⟩

end Sys2Proof.Machine
end

section
/-! Drawing (44_draw.md R330–R332): what a checked access answers in the terms of the statements, the pixels under a
sprite, the state a completed DXYN leaves, the outputs of every instruction, and from these the obligations about them. -/

namespace Sys2Proof.Machine

/-! ## A checked access in the terms of the statements -/

theorem readable_iff_loadable (a : Nat) : readable a = true ↔ loadable a := by
  rw [readable_iff, loadable, Nat.lt_succ_iff]

/-- Where the check decides a rule `good`, the lowest address against the rule halts the core. -/
theorem checked_of_lowestBad {ok : Nat → Bool} {good : Nat → Prop} (hok : ∀ a, ok a = true ↔ good a) {base n k : Nat}
    (h : lowestBad good base n k) (op : Word) (s : State) (body : Result) :
    ∃ t, checked ok base n op s body = .next t ∧ haltedWith .addressRangeError (some op) (some (base + k)) s t := by
  obtain ⟨hk, hbad, hlow⟩ := h
  have hbad' : ok (base + k) = false := Bool.eq_false_iff.2 fun hgood => hbad ((hok _).1 hgood)
  have hlow' : ∀ j < k, ok (base + j) = true := fun j hj => (hok _).2 (hlow j hj)
  exact ⟨_, checked_bad ok base n k op s body hk hbad' hlow', haltedWith_halt _ _ _ s⟩

/-- Settles O37: the check of the sprite's addresses stands before the draw. -/
theorem drawOutsideMemoryHalts : Obligations.DrawOutsideMemoryHalts := by
  intro s x y n k _ hbad
  exact checked_of_lowestBad readable_iff_loadable hbad (encode (.drw x y n)) s _

/-! ## The pixels under a sprite -/

theorem State.readBlock_getD (s : State) (base n k : Nat) (h : k < n) :
    (s.readBlock base n).getD k 0 = s.readByte (base + k) := by
  rw [List.getD_eq_getElem?_getD, s.readBlock_getElem? base n k h, Option.getD_some]

/-- `spriteCovers` over the rows that DXYN reads and the origin it draws them at. -/
theorem spriteCovers_iff_readBlock (s : State) (x y : Reg) (n : Nat) (q : Fin 32) (p : Fin 64) :
    spriteCovers s x y n q p ↔ ∃ r < n, q = rowOf (originY (s.reg y) + r) ∧
      ∃ c < (8 : Nat), p = colOf (originX (s.reg x) + c) ∧
        ((s.readBlock s.i.toNat n).getD r 0).getLsbD (7 - c) = true := by
  refine exists_congr fun r => and_congr_right fun hr => ?_
  rw [s.readBlock_getD _ _ _ hr, Fin.ext_iff]
  simp only [Fin.ext_iff, rowOf_val, colOf_val, originX, originY]

/-- Which pixels a sprite covers depends on its two coordinates, on I and on the bytes of memory only. -/
theorem spriteCovers_congr {s t : State} {x y : Reg} (hx : t.reg x = s.reg x) (hy : t.reg y = s.reg y) (hi : t.i = s.i)
    (hmem : ∀ a, t.readByte a = s.readByte a) (n : Nat) (q : Fin 32) (p : Fin 64) :
    spriteCovers t x y n q p ↔ spriteCovers s x y n q p := by
  simp only [spriteCovers, hx, hy, hi, hmem]

/-! ## A completed draw -/

theorem xor_decide_ne_iff (b : Bool) (p : Prop) [Decidable p] : (b ^^ decide p) ≠ b ↔ p := by
  cases b <;> simp

/-- The canvas of DXYN (`exec_drw_of_loadable` ties it to the model). -/
def State.spriteCanvas (s : State) (x y : Reg) (n : Nat) : Canvas :=
  drawSprite s.fb (originX (s.reg x)) (originY (s.reg y)) (s.readBlock s.i.toNat n)

theorem exec_drw_of_loadable {s : State} {n : Nat} (x y : Reg) (h : ∀ r < n, loadable (s.i.toNat + r)) :
    exec (.drw x y n) s = .next (s.drawn (s.spriteCanvas x y n)) :=
  checked_ok _ _ _ _ _ _ fun r hr => (readable_iff_loadable _).2 (h r hr)

/-- A sprite has at most 15 rows, so it does not reach its first row again and no pixel flips twice. -/
theorem State.spriteCanvas_pixel_ne_iff (s : State) (x y : Reg) {n : Nat} (hn : n < 16) (q : Fin 32) (p : Fin 64) :
    (s.spriteCanvas x y n).fb.pixel q p ≠ s.fb.pixel q p ↔ spriteCovers s x y n q p := by
  rw [State.spriteCanvas, drawSprite, Canvas.drawRows_pixel _ _ _ _ _ _ (by rw [State.readBlock_length]; omega),
    State.readBlock_length, xor_decide_ne_iff, spriteCovers_iff_readBlock]

theorem State.spriteCanvas_hit_iff (s : State) (x y : Reg) {n : Nat} (hn : n < 16) :
    (s.spriteCanvas x y n).hit = true ↔ ∃ q p, spriteCovers s x y n q p ∧ s.fb.pixel q p = true := by
  rw [State.spriteCanvas, drawSprite, Canvas.drawRows_hit _ _ _ _ (by rw [State.readBlock_length]; omega),
    State.readBlock_length, Bool.false_or, decide_eq_true_eq]
  simp only [spriteCovers_iff_readBlock]
  constructor
  · rintro ⟨r, hr, c, hc, hbit, hpixel⟩
    exact ⟨_, _, ⟨r, hr, rfl, c, hc, rfl, hbit⟩, hpixel⟩
  · rintro ⟨_, _, ⟨r, hr, rfl, c, hc, rfl, hbit⟩, hpixel⟩
    exact ⟨r, hr, c, hc, hbit, hpixel⟩

theorem State.drawn_reg (s : State) (d : Canvas) (r : Reg) :
    (s.drawn d).reg r = if r = regF then collisionFlag d.hit else s.reg r :=
  State.reg_setReg { s with fb := d.fb } regF r (collisionFlag d.hit)

theorem onlyChanged_drawn (s : State) (d : Canvas) :
    onlyChanged [.regs, .screen, .counter, .output] s (s.drawn d) :=
  ((((onlyChanged_refl _ s).andThen (onlyChanged_setScreen s d.fb)).thenSetReg regF _).andThen
    (onlyChanged_jump _ _)).andThen (onlyChanged_emit _ _)

/-- Settles O36: the canvas flips the covered pixels, and its collision is what VF holds. -/
theorem drawFlipsThePixelsUnderTheSprite : Obligations.DrawFlipsThePixelsUnderTheSprite := by
  intro s x y n hn hload
  have hflag : (s.drawn (s.spriteCanvas x y n)).reg regF = collisionFlag (s.spriteCanvas x y n).hit :=
    (s.drawn_reg _ _).trans (if_pos rfl)
  refine ⟨_, exec_drw_of_loadable x y hload, s.spriteCanvas_pixel_ne_iff x y hn, ?hit, ?miss, rfl, ?kept,
    onlyChanged_drawn s _⟩
  case hit =>
    intro hlit
    rw [hflag, (s.spriteCanvas_hit_iff x y hn).2 hlit]
    rfl
  case miss =>
    intro hdark
    rw [hflag, Bool.eq_false_iff.2 (mt (s.spriteCanvas_hit_iff x y hn).1 hdark)]
    rfl
  case kept =>
    intro r hr
    exact (s.drawn_reg _ r).trans (if_neg (List.ne_of_not_mem_cons hr))

/-! ## Two draws at the same place -/

/-- A pixel that both of two draws flip, or neither, is back where it was. -/
theorem eq_of_ne_iff_ne {a b c : Bool} (h : c ≠ b ↔ b ≠ a) : c = a := by
  revert a b c
  decide

/-- Settles O38: O36 twice. The first draw leaves what places the sprite, so the second flips the same pixels, and it
finds active just those that the first found inactive. -/
theorem drawTwiceRestoresTheScreen : Obligations.DrawTwiceRestoresTheScreen := by
  intro s x y n hx hy hn hload
  obtain ⟨t, hst, htflip, -, -, -, htregs, htframe⟩ := drawFlipsThePixelsUnderTheSprite s x y n hn hload
  have hi : t.i = s.i := htframe .index (by decide)
  have hcovers (q p) : spriteCovers t x y n q p ↔ spriteCovers s x y n q p :=
    spriteCovers_congr (htregs x (by simpa using hx)) (htregs y (by simpa using hy)) hi (htframe .memory (by decide))
      n q p
  obtain ⟨u, htu, huflip, hlit, hdark, -⟩ := drawFlipsThePixelsUnderTheSprite t x y n hn (hi ▸ hload)
  have hlit_iff_dark : (∃ q p, spriteCovers t x y n q p ∧ t.fb.pixel q p = true) ↔
      ∃ q p, spriteCovers s x y n q p ∧ s.fb.pixel q p = false := by
    refine exists_congr fun q => exists_congr fun p => ?_
    rw [hcovers]
    refine and_congr_right fun hc => ?_
    rw [Bool.eq_not.2 ((htflip q p).2 hc), Bool.not_eq_true']
  have hflag : u.reg regF = 1 ↔ ∃ q p, spriteCovers t x y n q p ∧ t.fb.pixel q p = true :=
    ⟨fun hone => by_contra fun hnone => absurd (hone.symm.trans (hdark hnone)) (by decide), hlit⟩
  exact ⟨t, u, hst, htu,
    fun q p => eq_of_ne_iff_ne ((huflip q p).trans ((hcovers q p).trans (htflip q p).symm)), hflag.trans hlit_iff_dark⟩

/-- A machine just reset, every pixel active. -/
def allLit : State := { State.reset with fb := Vector.replicate 32 (Vector.replicate 64 true) }

theorem allLit_pixel (q : Fin 32) (p : Fin 64) : allLit.fb.pixel q p = true := by
  simp [allLit, Framebuffer.pixel, Vector.get_eq_getElem]

/-- Refutes O39: on a screen that is all active, the first draw of the glyph row 0xF0 makes the pixels under it inactive,
so the second finds none of them active (O38). -/
theorem not_secondDrawAlwaysCollides : ¬ Obligations.SecondDrawAlwaysCollides := by
  intro h
  have hload : ∀ r < 1, loadable (allLit.i.toNat + r) := by
    unfold loadable
    decide
  have hcovered : ∃ q p, spriteCovers allLit 0 1 1 q p :=
    ⟨0, 0, 0, by decide, by decide, 0, by decide, by decide, by decide⟩
  obtain ⟨t, u, hst, htu, -, hflag⟩ := drawTwiceRestoresTheScreen allLit 0 1 1 (by decide) (by decide) (by decide) hload
  have hone := h allLit t u 0 1 1 (by decide) (by decide) (by decide) hload hcovered hst htu
  obtain ⟨q, p, -, hdark⟩ := hflag.1 hone
  rw [allLit_pixel] at hdark
  cases hdark

/-! ## The outputs of every instruction -/

/-- An instruction halts the core with a record, or leaves the run status alone (60_exceptions.md R501, R503). -/
theorem exec_halt_or_status_eq {i : Instr} {s t : State} (h : exec i s = .next t) :
    (∃ r, t = s.halt r) ∨ t.status = s.status := by
  cases i with
  | ret =>
    obtain ⟨-, rfl⟩ | ⟨_, -, rfl⟩ := exec_ret_cases h
    · exact .inl ⟨_, rfl⟩
    · exact .inr rfl
  | call =>
    obtain ⟨-, rfl⟩ | ⟨_, -, rfl⟩ := exec_call_cases h
    · exact .inl ⟨_, rfl⟩
    · exact .inr rfl
  | ldVKey =>
    obtain ⟨-, rfl⟩ | ⟨_, -, rfl⟩ := exec_ldVKey_cases h
    · exact .inr rfl
    · exact .inr rfl
  | drw | bcd | storeRegs | loadRegs =>
    obtain ⟨_, -, -, -, rfl⟩ | ⟨-, rfl⟩ := checked_next_cases h
    · exact .inl ⟨_, rfl⟩
    · exact .inr (by simp [State.drawn])
  | seImm | sneImm | seReg | sneReg | skp | sknp => cases h; exact .inr (State.skipIf_status s _)
  | rnd => cases h; exact .inr (by simp)
  | cls | jp | ldImm | addImm | ldReg | orReg | andReg | xorReg | addReg | subReg | shr | subn | shl | ldI | jpV0 | ldVDt
  | ldDtV | beep | addI | ldGlyph => cases h; exact .inr rfl

/-- Settles O40: a halt emits its Fault; of the instructions that commit, the frame of O51 gives output to DXYN and FX18
only. -/
theorem outputsOfEveryInstruction : Obligations.OutputsOfEveryInstruction := by
  intro i s t hrun h
  obtain ⟨r, rfl⟩ | hstatus := exec_halt_or_status_eq h
  · exact ⟨fun _ => ⟨r, rfl, rfl⟩, nofun⟩
  refine ⟨fun hhalt => ?_, fun ht => ?_⟩
  · rw [hstatus, hrun] at hhalt
    cases hhalt
  cases i with
  | drw =>
    obtain ⟨_, -, -, -, rfl⟩ | ⟨-, rfl⟩ := checked_next_cases h
    · cases ht
    · rfl
  | beep => cases h; rfl
  | _ =>
    have hout : t.out = s.out := onlyListedPartsAreWritten _ s t hrun h ht .output (by simp [writesParts])
    exact hout.trans (List.append_nil _).symm

end Sys2Proof.Machine
end

section
/-! Key skips (45_key_skip.md R360–R362): when the latch matches a register, and from this the obligation about EX9E and
EXA1. -/

namespace Sys2Proof.Machine

/-- An empty latch matches no register value (45_key_skip.md R362). -/
theorem keyMatches_iff_keyIs (s : State) (x : Reg) : keyMatches s.key (s.reg x) = true ↔ s.keyIs x := by
  unfold keyMatches State.keyIs
  cases s.key with
  | none => simp only [Bool.false_eq_true, reduceCtorEq, false_and, exists_false]
  | some k => simp only [decide_eq_true_eq, Option.some.injEq, exists_eq_left']

theorem State.skipIf_pc_of_iff (s : State) {c : Bool} {p : Prop} (h : c = true ↔ p) :
    (p → (s.skipIf c).pc = s.pc + 4) ∧ (¬ p → (s.skipIf c).pc = s.pc + 2) :=
  ⟨fun hp => (s.skipIf_pc c).trans (if_pos (h.2 hp)), fun hp => (s.skipIf_pc c).trans (if_neg (mt h.1 hp))⟩

/-- Settles O25: EX9E skips on the match of the latch with V[X], EXA1 on its negation. -/
theorem skipsOnTheKey : Obligations.SkipsOnTheKey := by
  intro s x
  have hkey : keyMatches s.key (s.reg x) = true ↔ s.keyIs x := keyMatches_iff_keyIs s x
  have hnokey : (!keyMatches s.key (s.reg x)) = true ↔ ¬ s.keyIs x := by
    rw [Bool.not_eq_true', ← Bool.not_eq_true, hkey]
  constructor
  · obtain ⟨hskip, hstay⟩ := s.skipIf_pc_of_iff hkey
    exact ⟨_, rfl, hskip, hstay, onlyChanged_skipIf s _⟩
  · obtain ⟨hskip, hstay⟩ := s.skipIf_pc_of_iff hnokey
    exact ⟨_, rfl, hskip, fun hk => hstay (not_not_intro hk), onlyChanged_skipIf s _⟩

end Sys2Proof.Machine
end

section
/-! Timer, key wait, audio, index and memory blocks (46_misc.md R380–R388): the index, the key code and the digits as
numbers, the frame of two operations in turn, the bytes after FX33, and from these the obligations about
category F. -/

namespace Sys2Proof.Machine

/-! ## Operands as numbers -/

theorem keyByte_toNat (k : KeyCode) : (keyByte k).toNat = k.val :=
  (BitVec.toNat_ofNat _ _).trans (Nat.mod_eq_of_lt (by omega))

theorem indexPlus_toNat (i : Word) (n : Nat) : (indexPlus i n).toNat = (i.toNat + n) % 65536 :=
  BitVec.toNat_ofNat _ _

/-- Five times a byte fits I, so no bit of V[X] is masked off (R385). -/
theorem glyphAddr_toNat (a : Byte) : (glyphAddr a).toNat = a.toNat * 5 :=
  (BitVec.toNat_ofNat _ _).trans (Nat.mod_eq_of_lt (by omega))

/-- The fields of a packed word in the order of the statements: the fixed bits, then X. -/
theorem packXNN_eq_ofNat (c : Nat) (x : Reg) (nn : Byte) :
    packXNN c x nn = BitVec.ofNat 16 (c * 4096 + nn.toNat + x.val * 256) := by
  rw [packXNN, Nat.add_right_comm]

/-! ## One operation after another -/

/-- Two operations in turn change what either does; the last operation of an instruction here is the advance. -/
theorem onlyChanged.append {ps qs : List Part} {s t u : State} (h : onlyChanged ps s t) (h' : onlyChanged qs t u) :
    onlyChanged (ps ++ qs) s u :=
  ((onlyChanged_refl _ s).andThen h (List.subset_append_left ps qs)).andThen h' (List.subset_append_right ps qs)

/-! ## Timer, key wait, audio and index -/

/-- Settles O41: a register write and a timer write, each followed by the advance. -/
theorem movesTheDelayTimer : Obligations.MovesTheDelayTimer := by
  intro s x
  constructor
  · exact writeResult_next x s.dt s
  · exact ⟨_, rfl, rfl, rfl, (onlyChanged_setTimer s _).append (onlyChanged_jump _ _)⟩

/-- With no key latched the state itself is the next one: pc is set to the pc0 it holds (R381). -/
theorem exec_ldVKey_of_none {s : State} (x : Reg) (h : s.key = none) : exec (.ldVKey x) s = .next s := by
  change execLdVKey x s = _
  rw [execLdVKey, h]
  rfl

theorem exec_ldVKey_of_some {s : State} (x : Reg) {k : KeyCode} (h : s.key = some k) :
    exec (.ldVKey x) s = writeResult x (keyByte k) s := by
  change execLdVKey x s = _
  rw [execLdVKey, h]

/-- Settles O42: a next state equal to the old one, or the write of the key's code. -/
theorem waitsForAKey : Obligations.WaitsForAKey := by
  intro s x
  constructor
  · intro hnone
    exact ⟨s, exec_ldVKey_of_none x hnone, onlyChanged_refl [] s⟩
  · intro k hkey
    obtain ⟨t, hnext, hreg, hrest⟩ := writeResult_next x (keyByte k) s
    exact ⟨t, (exec_ldVKey_of_some x hkey).trans hnext, by rw [hreg, keyByte_toNat], hrest⟩

/-- Settles O43: one event emitted, then the advance. -/
theorem beepsAndGoesOn : Obligations.BeepsAndGoesOn := by
  intro s x
  exact ⟨_, rfl, rfl, rfl, (onlyChanged_emit s _).append (onlyChanged_jump _ _)⟩

/-- Settles O44: the 16-bit index reduces the sum. -/
theorem addsToTheIndex : Obligations.AddsToTheIndex := by
  intro s x
  exact ⟨_, rfl, indexPlus_toNat s.i _, rfl, (onlyChanged_setIndex s _).append (onlyChanged_jump _ _)⟩

/-- Settles O45: the product is exact. -/
theorem pointsAtAGlyph : Obligations.PointsAtAGlyph := by
  intro s x
  exact ⟨_, rfl, glyphAddr_toNat (s.reg x), rfl, (onlyChanged_setIndex s _).append (onlyChanged_jump _ _)⟩

/-! ## Addresses that may be written -/

theorem writable_iff_storable (s : State) (a : Nat) : writable s.cfg a = true ↔ storable s a := by
  rw [writable_iff, storable, Nat.lt_succ_iff]

theorem storable.loadable {s : State} {a : Nat} (h : storable s a) : loadable a := h.1

theorem storable.lt_memSize {s : State} {a : Nat} (h : storable s a) : a < memSize :=
  Nat.lt_succ_of_le h.loadable

/-! ## The decimal digits -/

/-- The memory writes of FX33 (`exec_bcd_of_storable` ties it to the model). -/
def State.storeDigits (s : State) (base : Nat) (v : Byte) : State :=
  ((s.writeByte base (hundreds v)).writeByte (base + 1) (tens v)).writeByte (base + 2) (ones v)

theorem exec_bcd_of_storable {s : State} (x : Reg) (h : ∀ k < 3, storable s (s.i.toNat + k)) :
    exec (.bcd x) s = .next (s.storeDigits s.i.toNat (s.reg x)).advance :=
  checked_ok _ _ _ _ _ _ fun k hk => (writable_iff_storable s _).2 (h k hk)

theorem onlyChanged_storeDigits (s : State) (base : Nat) (v : Byte) :
    onlyChanged [.memory] s (s.storeDigits base v) :=
  ((onlyChanged_writeByte s _ _).andThen (onlyChanged_writeByte _ _ _)).andThen (onlyChanged_writeByte _ _ _)

/-- Every byte after the three writes; each of them finds canonical memory. -/
theorem State.readByte_storeDigits {s : State} {base : Nat} (v : Byte) (hm : s.memCanonical)
    (h : ∀ k < 3, base + k < memSize) (a : Nat) :
    (s.storeDigits base v).readByte a =
      if a = base + 2 then ones v else if a = base + 1 then tens v else if a = base then hundreds v
      else s.readByte a := by
  have hfirst := s.wf_writeByte base (hundreds v) (h 0 (by decide)) hm
  have hsecond := State.wf_writeByte _ (base + 1) (tens v) (h 1 (by decide)) hfirst
  rw [State.storeDigits, State.readByte_writeByte _ _ _ _ hsecond, State.readByte_writeByte _ _ _ _ hfirst,
    State.readByte_writeByte _ _ _ _ hm]

/-- Settles O46: the three writes read back, or the check halts before any of them. -/
theorem storesDecimalDigits : Obligations.StoresDecimalDigits := by
  intro s x hm
  constructor
  · intro hok
    have hread (a : Nat) := State.readByte_storeDigits (s.reg x) hm (fun k hk => (hok k hk).lt_memSize) a
    refine ⟨_, exec_bcd_of_storable x hok, ?hundreds, ?tens, ?ones, ?kept, rfl,
      (onlyChanged_storeDigits s _ _).append (onlyChanged_jump _ _)⟩
    case hundreds =>
      rw [State.readByte_advance, hread, if_neg (by omega), if_neg (by omega), if_pos rfl, hundreds]
    case tens => rw [State.readByte_advance, hread, if_neg (by omega), if_pos rfl, tens]
    case ones => rw [State.readByte_advance, hread, if_pos rfl, ones]
    case kept =>
      intro a ha
      rw [State.readByte_advance, hread, if_neg (by omega), if_neg (by omega), if_neg (by omega)]
  · intro k hbad
    have hword : encode (.bcd x) = BitVec.ofNat 16 (0xF033 + x.val * 256) := packXNN_eq_ofNat 0xF x 0x33
    rw [← hword]
    exact checked_of_lowestBad (writable_iff_storable s) hbad _ s _

/-! ## The register block -/

theorem exec_storeRegs_of_storable {s : State} {x : Reg} (h : ∀ k < x.val + 1, storable s (s.i.toNat + k)) :
    exec (.storeRegs x) s =
      .next ((s.storeBlock s.i.toNat (x.val + 1)).setIndex (indexPlus s.i (x.val + 1))).advance :=
  checked_ok _ _ _ _ _ _ fun k hk => (writable_iff_storable s _).2 (h k hk)

theorem exec_loadRegs_of_loadable {s : State} {x : Reg} (h : ∀ k < x.val + 1, loadable (s.i.toNat + k)) :
    exec (.loadRegs x) s =
      .next ((s.loadBlock s.i.toNat (x.val + 1)).setIndex (indexPlus s.i (x.val + 1))).advance :=
  checked_ok _ _ _ _ _ _ fun k hk => (readable_iff_loadable _).2 (h k hk)

/-- Settles O47: the bytes are those of `State.storeBlock`, or the check halts before any of them is written. -/
theorem storesTheRegisterBlock : Obligations.StoresTheRegisterBlock := by
  intro s x hm
  constructor
  · intro hok
    have hread (a : Nat) := s.readByte_storeBlock s.i.toNat (x.val + 1) a (fun k hk => (hok k hk).lt_memSize) hm
    refine ⟨_, exec_storeRegs_of_storable hok, ?stored, ?kept, indexPlus_toNat s.i (x.val + 1), ?pc,
      ((onlyChanged_storeBlock s _ _).append (onlyChanged_setIndex _ _)).append (onlyChanged_jump _ _)⟩
    case stored =>
      intro r hr
      rw [State.readByte_advance, State.readByte_setIndex, hread, if_pos (by omega), Nat.add_sub_cancel_left,
        regOf_self]
    case kept =>
      intro a ha
      rw [State.readByte_advance, State.readByte_setIndex, hread, if_neg (by omega)]
    case pc => simp
  · intro k hbad
    have hword : encode (.storeRegs x) = BitVec.ofNat 16 (0xF055 + x.val * 256) := packXNN_eq_ofNat 0xF x 0x55
    rw [← hword]
    exact checked_of_lowestBad (writable_iff_storable s) hbad _ s _

/-- Settles O48: the registers are those of `State.loadBlock`, or the check halts before any of them is loaded. -/
theorem loadsTheRegisterBlock : Obligations.LoadsTheRegisterBlock := by
  intro s x
  constructor
  · intro hok
    refine ⟨_, exec_loadRegs_of_loadable hok, ?loaded, indexPlus_toNat s.i (x.val + 1), ?pc,
      ((onlyChanged_loadBlock s _ _).append (onlyChanged_setIndex _ _)).append (onlyChanged_jump _ _)⟩
    case loaded =>
      intro r
      rw [State.reg_advance, State.reg_setIndex, s.reg_loadBlock _ _ _ x.isLt]
      exact if_congr Nat.lt_succ_iff rfl rfl
    case pc => simp
  · intro k hbad
    have hword : encode (.loadRegs x) = BitVec.ofNat 16 (0xF065 + x.val * 256) := packXNN_eq_ofNat 0xF x 0x65
    rw [← hword]
    exact checked_of_lowestBad readable_iff_loadable hbad _ s _

/-- Settles O49: the bytes that O47 says the store left are the ones that O48 says the load reads; memory is the same
between the two, and an address that may be written may be read. -/
theorem storedBlockLoadsBack : Obligations.StoredBlockLoadsBack := by
  intro s x w hm hok
  obtain ⟨t, hstore, hstored, -⟩ := (storesTheRegisterBlock s x hm).1 hok
  obtain ⟨u, hload, hloaded, -⟩ :=
    (loadsTheRegisterBlock { t with i := s.i, v := w } x).1 fun k hk => (hok k hk).loadable
  refine ⟨t, u, hstore, hload, fun r hr => ?_⟩
  calc u.reg r = t.readByte (s.i.toNat + r.val) := (hloaded r).trans (if_pos hr)
    _ = s.reg r := hstored r hr

end Sys2Proof.Machine
end

section
/-! The delivery of the host's events (60_exceptions.md R504, R509–R513; 30_encoding.md R160): the frame of each event,
the step that each event makes, and from these the obligations about the cycle and the host's events. -/

namespace Sys2Proof.Machine

/-! ## What each event does, and its frame -/

theorem onlyChanged_eventTaken (s : State) : onlyChanged [.events] s s.eventTaken := by
  intro p hp
  cases p <;> simp_all [Part.same]

theorem onlyChanged_tick (s : State) : onlyChanged [.timer] s s.tick := by
  intro p hp
  cases p <;> simp_all [Part.same]

theorem onlyChanged_keyDown (s : State) (k : KeyCode) : onlyChanged [.latch] s (s.keyDown k) := by
  intro p hp
  cases p <;> simp_all [Part.same]

theorem onlyChanged_keyUp (s : State) (k : KeyCode) : onlyChanged [.latch] s (s.keyUp k) := by
  intro p hp
  cases p <;> simp_all [Part.same]

theorem onlyChanged_countCycle (s : State) : onlyChanged [.latch] s s.countCycle := by
  intro p hp
  cases p <;> simp_all [Part.same]

theorem State.keyDown_accepted {s : State} (k : KeyCode) (h : s.cfg.window ≤ s.kcnt) :
    (s.keyDown k).key = some k ∧ (s.keyDown k).kcnt = 0 := by
  rw [State.keyDown, if_pos h]
  exact ⟨rfl, rfl⟩

theorem State.keyDown_dropped {s : State} (k : KeyCode) (h : s.kcnt < s.cfg.window) : s.keyDown k = s :=
  if_neg (Nat.not_le.2 h)

/-- The frame of what is done once the event is used up. -/
theorem onlyChanged.afterEvent {p : Part} {s t : State} (h : onlyChanged [p] s.eventTaken t) :
    onlyChanged [p, .events] s t :=
  ((onlyChanged_refl _ s).andThen (onlyChanged_eventTaken s)).andThen h

/-- An event is used up where the events port is as `State.eventTaken` left it. -/
theorem eventUsed_of_same {s t : State} (h : Part.events.same s.eventTaken t) : eventUsed s t := h

/-! ## The step of each event -/

theorem step_halted {s : State} (h : s.status = .halted) : step s = .next s.eventTaken :=
  deliver_halted s.nextEvent s.eventTaken h

theorem step_cycle {s : State} (he : s.nextEvent = .cycle) : step s = runCycle s.eventTaken := by
  rw [step, stepEvent, he, deliver]

section
variable {s : State} (hrun : s.status = .running)
include hrun

theorem State.whileRunning_eventTaken (t : State) : s.eventTaken.whileRunning t = t := if_pos hrun

theorem step_tick (he : s.nextEvent = .tick) : step s = .next s.eventTaken.tick := by
  rw [step, stepEvent, he, deliver, State.whileRunning_eventTaken hrun]

theorem step_keyDown {k : KeyCode} (he : s.nextEvent = .keyDown k) : step s = .next (s.eventTaken.keyDown k) := by
  rw [step, stepEvent, he, deliver, State.whileRunning_eventTaken hrun]

theorem step_keyUp {k : KeyCode} (he : s.nextEvent = .keyUp k) : step s = .next (s.eventTaken.keyUp k) := by
  rw [step, stepEvent, he, deliver, State.whileRunning_eventTaken hrun]

end

theorem State.fetchable_iff (s : State) : s.fetchable = true ↔ 0x200 ≤ s.pc.toNat ∧ s.pc.toNat ≤ 0xFFE :=
  decide_eq_true_iff

theorem runCycle_of_not_fetchable {s : State} (hrun : s.status = .running) (hf : ¬ s.fetchable = true) :
    runCycle s = raise .addressRangeError none (some s.pc.toNat) s := by
  simp only [runCycle, hrun, hf, reduceCtorEq, if_false, Bool.false_eq_true]

theorem runCycle_of_decode_error {s : State} {e : DecodeReject} (hrun : s.status = .running)
    (hf : s.fetchable = true) (hd : decode s.fetchBytes = .error e) :
    runCycle s = raise .decodeError (some s.fetchWord) none s := by
  simp only [runCycle, hrun, hf, hd, reduceCtorEq, if_false, if_true]

theorem runCycle_of_decode_ok {s : State} {i : Instr} {rest : List Byte} (hrun : s.status = .running)
    (hf : s.fetchable = true) (hd : decode s.fetchBytes = .ok (i, rest)) : runCycle s = endCycle (exec i s) := by
  simp only [runCycle, hrun, hf, hd, reduceCtorEq, if_false, if_true]

theorem endCycle_next (t : State) :
    endCycle (.next t) = .next (if t.status = .running then t.countCycle else t) :=
  (apply_ite Host.Outcome.next _ _ _).symm

/-- A Cycle that reaches an instruction executes it with the event used up, and ends. -/
theorem step_of_decode_ok {s : State} {i : Instr} {rest : List Byte} (hrun : s.status = .running)
    (he : s.nextEvent = .cycle) (hf : s.fetchable = true) (hd : decode s.fetchBytes = .ok (i, rest)) :
    step s = endCycle (exec i s.eventTaken) :=
  (step_cycle he).trans (runCycle_of_decode_ok (s := s.eventTaken) hrun hf hd)

theorem run_succ_of_step_next {M : Host.Core} {s t : M.State} (h : M.step s = .next t) (n : Nat) :
    M.run (n + 1) s = M.run n t := by
  rw [Host.Core.run, h]

/-! ## The obligations about the host's events -/

/-- Settles O55: of the ways a step can go, those without a Cycle leave at most a Tick or a key event behind. -/
theorem eventsDoNotChangeControlFlow : Obligations.EventsDoNotChangeControlFlow := by
  rintro s t e rfl hcycle h
  obtain ⟨-, rfl⟩ | ⟨-, he, rfl⟩ | ⟨k, -, he, rfl⟩ | ⟨k, -, he, rfl⟩ | ⟨-, he, -⟩ | ⟨-, -, he, -⟩ | ⟨-, -, -, -, he, -⟩ :=
    step_cases s t h
  · have hframe (ps : List Part) (hps : [.events] ⊆ ps) : onlyChanged ps s s.eventTaken :=
      (onlyChanged_refl ps s).andThen (onlyChanged_eventTaken s) hps
    exact ⟨hframe _ (by simp), fun _ => hframe _ (by simp), fun _ => hframe _ (by simp)⟩
  · have hframe := (onlyChanged_tick s.eventTaken).afterEvent
    exact ⟨(onlyChanged_refl _ s).andThen hframe, fun _ => hframe, fun hne => absurd he hne⟩
  · have hframe := (onlyChanged_keyDown s.eventTaken k).afterEvent
    exact ⟨(onlyChanged_refl _ s).andThen hframe, fun htick => by simp [he] at htick, fun _ => hframe⟩
  · have hframe := (onlyChanged_keyUp s.eventTaken k).afterEvent
    exact ⟨(onlyChanged_refl _ s).andThen hframe, fun htick => by simp [he] at htick, fun _ => hframe⟩
  all_goals exact absurd he hcycle

/-- Settles O16: `State.tick` counts down to 0, where a difference of numbers stays. -/
theorem tickCountsDown : Obligations.TickCountsDown := by
  intro s hrun he
  refine ⟨_, step_tick hrun he, ?_, eventUsed_of_same ?_, (onlyChanged_tick s.eventTaken).afterEvent⟩
  · rw [State.tick_dt_toNat, State.eventTaken_dt]
    split <;> omega
  · exact onlyChanged_tick s.eventTaken .events (by decide)

/-- Settles O17: a KeyDown on each side of the window, and a KeyUp. -/
theorem keyEventsUpdateTheLatch : Obligations.KeyEventsUpdateTheLatch := by
  intro s k hrun
  constructor
  · intro he
    refine ⟨_, step_keyDown hrun he, onlyChanged_keyDown s.eventTaken k .events (by decide),
      State.keyDown_accepted (s := s.eventTaken) k, fun hinside => ?_, (onlyChanged_keyDown s.eventTaken k).afterEvent⟩
    rw [State.keyDown_dropped (s := s.eventTaken) k hinside]
    exact ⟨rfl, rfl⟩
  · intro he
    exact ⟨_, step_keyUp hrun he, onlyChanged_keyUp s.eventTaken k .events (by decide), rfl, rfl,
      (onlyChanged_keyUp s.eventTaken k).afterEvent⟩

/-- Settles O15, by induction on the number of steps: each only uses up its event, and the core stays halted. -/
theorem haltedCoreIsFrozen : Obligations.HaltedCoreIsFrozen := by
  intro n
  induction n with
  | zero => exact fun s _ => ⟨s, rfl, onlyChanged_refl _ s⟩
  | succ n ih =>
    intro s hs
    obtain ⟨t, hrun, hframe⟩ := ih s.eventTaken hs
    exact ⟨t, (run_succ_of_step_next (M := core) (step_halted hs) n).trans hrun,
      (onlyChanged_eventTaken s).andThen hframe⟩

/-! ## The obligations about the cycle -/

/-- Settles O11: a Cycle that reaches the instruction is its execution and the end of the cycle. -/
theorem stepRunsTheDecodedInstruction : Obligations.StepRunsTheDecodedInstruction := by
  intro s t i rest hrun he hlow hhigh hd hexec
  refine ⟨⟨rfl, rfl⟩, onlyChanged_eventTaken s, ?_⟩
  rw [step_of_decode_ok hrun he (s.fetchable_iff.2 ⟨hlow, hhigh⟩) hd, hexec]
  exact endCycle_next t

/-- Settles O13: the range of the pc is the first check of a Cycle. -/
theorem fetchOutsideRangeHalts : Obligations.FetchOutsideRangeHalts := by
  intro s hrun he hout
  have hf : ¬ s.eventTaken.fetchable = true := by
    rw [State.fetchable_iff, State.eventTaken_pc]
    omega
  exact ⟨_, (step_cycle he).trans (runCycle_of_not_fetchable hrun hf), ⟨rfl, rfl⟩, haltedWith_halt _ _ _ s.eventTaken⟩

/-- Settles O14: the decoder rejects the fetched bytes as it rejects the fetched word. -/
theorem illegalWordHalts : Obligations.IllegalWordHalts := by
  intro s e hrun he hlow hhigh hword
  have hf : s.eventTaken.fetchable = true := s.fetchable_iff.2 ⟨hlow, hhigh⟩
  have hd : decode s.eventTaken.fetchBytes = .error e := by
    change decode s.fetchBytes = .error e
    rw [s.decode_fetchBytes, hword]
  exact ⟨_, (step_cycle he).trans (runCycle_of_decode_error hrun hf hd), ⟨rfl, rfl⟩,
    haltedWith_halt _ _ _ s.eventTaken⟩

/-- Settles O57: the jump of a completed run leaves the pc it finds, so the Cycle only counts for the window. -/
theorem completedRunStaysCompleted : Obligations.CompletedRunStaysCompleted := by
  rintro s ⟨hrun, hf, nnn, hd, hself⟩ he
  have hexec : exec (.jp nnn) s.eventTaken = .next s.eventTaken := by
    change Host.Outcome.next (s.eventTaken.jump (addrOf nnn)) = _
    rw [hself]
    rfl
  have hstep : step s = .next s.eventTaken.countCycle := by
    rw [step_of_decode_ok hrun he hf hd, hexec, endCycle_running s.eventTaken hrun]
  exact ⟨_, hstep, ⟨hrun, hf, nnn, hd, hself⟩, rfl, (onlyChanged_countCycle s.eventTaken).afterEvent⟩

/-! ## Every instruction and every step answers -/

theorem exists_checked_next (ok : Nat → Bool) (base n : Nat) (op : Word) (s u : State) :
    ∃ t, checked ok base n op s (.next u) = .next t := by
  obtain ⟨-, h⟩ | ⟨k, -, -, -, h⟩ := checked_cases ok base n op s (.next u)
  · exact ⟨_, h⟩
  · exact ⟨_, h⟩

theorem exists_exec_next (i : Instr) (s : State) : ∃ t, exec i s = .next t := by
  cases i with
  | ret =>
    cases hsp : s.sp with
    | none => exact ⟨_, exec_ret_of_empty hsp⟩
    | some k => exact ⟨_, exec_ret_of_newest hsp⟩
  | call nnn =>
    cases hslot : nextSlot s.sp with
    | none => exact ⟨_, exec_call_of_full nnn hslot⟩
    | some k => exact ⟨_, exec_call_of_slot nnn hslot⟩
  | ldVKey x =>
    cases hkey : s.key with
    | none => exact ⟨_, exec_ldVKey_of_none x hkey⟩
    | some k => exact ⟨_, exec_ldVKey_of_some x hkey⟩
  | drw | bcd | storeRegs | loadRegs => exact exists_checked_next _ _ _ _ s _
  | _ => exact ⟨_, rfl⟩

theorem exists_runCycle_next (s : State) : ∃ t, runCycle s = .next t := by
  cases hs : s.status with
  | halted => exact ⟨s, deliver_halted .cycle s hs⟩
  | running =>
    by_cases hf : s.fetchable = true
    · cases hd : decode s.fetchBytes with
      | error e => exact ⟨_, runCycle_of_decode_error hs hf hd⟩
      | ok p =>
        obtain ⟨t, ht⟩ := exists_exec_next p.1 s
        rw [runCycle_of_decode_ok hs hf hd, ht]
        exact ⟨_, endCycle_next t⟩
    · exact ⟨_, runCycle_of_not_fetchable hs hf⟩

theorem exists_step_next (s : State) : ∃ t, step s = .next t := by
  change ∃ t, deliver s.nextEvent s.eventTaken = .next t
  cases s.nextEvent with
  | cycle => exact exists_runCycle_next s.eventTaken
  | tick | keyDown k | keyUp k => exact ⟨_, rfl⟩

/-- No instruction reaches the host's events: a raise only halts, and no commit lists them (O51). -/
theorem exec_keeps_events {i : Instr} {s t : State} (hrun : s.status = .running) (h : exec i s = .next t) :
    Part.events.same s t := by
  obtain ⟨r, rfl⟩ | hstatus := exec_halt_or_status_eq h
  · exact ⟨rfl, rfl⟩
  · exact onlyListedPartsAreWritten i s t hrun h (hstatus.trans hrun) .events (by cases i <;> simp [writesParts])

theorem step_eventUsed {s t : State} (h : step s = .next t) : eventUsed s t := by
  apply eventUsed_of_same
  obtain ⟨-, rfl⟩ | ⟨-, -, rfl⟩ | ⟨k, -, -, rfl⟩ | ⟨k, -, -, rfl⟩ | ⟨-, -, -, rfl⟩ | ⟨e, -, -, -, -, rfl⟩ |
    ⟨i, rest, u, hrun, -, -, -, hu, hc⟩ := step_cases s t h
  · exact ⟨rfl, rfl⟩
  · exact onlyChanged_tick _ .events (by decide)
  · exact onlyChanged_keyDown _ k .events (by decide)
  · exact ⟨rfl, rfl⟩
  · exact ⟨rfl, rfl⟩
  · exact ⟨rfl, rfl⟩
  · have hsame : Part.events.same s.eventTaken u := exec_keeps_events hrun hu
    obtain ⟨-, rfl⟩ | ⟨-, rfl⟩ := hc
    · exact hsame
    · exact hsame

/-- Settles O10: every branch of an instruction, of a Cycle and of a delivery answers, and none of them takes a second
event. -/
theorem everyStepAnswersNext : Obligations.EveryStepAnswersNext := by
  refine ⟨exists_exec_next, fun s => ?_, fun s e rest h => ?_, fun s h => ?_⟩
  · obtain ⟨t, ht⟩ := exists_step_next s
    exact ⟨t, ht, step_eventUsed ht⟩
  · rw [State.nextEvent, h]
  · rw [State.nextEvent, h]

end Sys2Proof.Machine
end

section
/-! The output history (60_exceptions.md R512, R514): putting events before those already emitted commutes with every
operation, every instruction and a step, and from this the obligation that nothing reads the outputs. -/

namespace Sys2Proof.Machine

/-- The state that has emitted the events `p` before all it has emitted so far. -/
def State.withHistory (p : List OutEvent) (s : State) : State := { s with out := p ++ s.out }

/-- A change of the state an instruction, a Cycle or a step answers. -/
def mapNext (f : State → State) : Result → Result
  | .next t => .next (f t)
  | .fault r => .fault r
  | .refused r => .refused r

theorem mapNext_next (f : State → State) (t : State) : mapNext f (.next t) = .next (f t) := rfl

/-! ## The operations -/

section
variable (p : List OutEvent) (s : State)

theorem State.emit_withHistory (e : OutEvent) : (s.withHistory p).emit e = (s.emit e).withHistory p := by
  simp only [State.emit, State.withHistory, List.append_assoc]

theorem State.halt_withHistory (r : FaultRecord) : (s.withHistory p).halt r = (s.halt r).withHistory p :=
  State.emit_withHistory p { s with status := .halted, fault := some r } (.fault r)

theorem State.skipIf_withHistory (c : Bool) : (s.withHistory p).skipIf c = (s.skipIf c).withHistory p := by
  cases c <;> rfl

theorem State.readBlock_withHistory (base n : Nat) : (s.withHistory p).readBlock base n = s.readBlock base n :=
  s.readBlock_congr (s.withHistory p) (fun _ => rfl) base n

theorem State.drawn_withHistory (d : Canvas) : (s.withHistory p).drawn d = (s.drawn d).withHistory p :=
  State.emit_withHistory p (({ s with fb := d.fb } : State).setReg regF (collisionFlag d.hit)).advance (.present d.fb)

theorem State.consumeRand_withHistory : (s.withHistory p).consumeRand = s.consumeRand.withHistory p := by
  change State.consumeRand { s with out := p ++ s.out } = _
  unfold State.consumeRand
  cases s.randIn <;> rfl

theorem State.storeBlock_withHistory (base n : Nat) :
    (s.withHistory p).storeBlock base n = (s.storeBlock base n).withHistory p := by
  induction n with
  | zero => rfl
  | succ n ih => rw [State.storeBlock, ih]; rfl

theorem State.loadBlock_withHistory (base n : Nat) :
    (s.withHistory p).loadBlock base n = (s.loadBlock base n).withHistory p := by
  induction n with
  | zero => rfl
  | succ n ih => rw [State.loadBlock, ih]; rfl

theorem State.tick_withHistory : (s.withHistory p).tick = s.tick.withHistory p :=
  (apply_ite (State.withHistory p) (s.dt = 0) s (s.setTimer (s.dt - 1))).symm

theorem State.keyDown_withHistory (k : KeyCode) : (s.withHistory p).keyDown k = (s.keyDown k).withHistory p :=
  (apply_ite (State.withHistory p) (s.cfg.window ≤ s.kcnt) { s with key := some k, kcnt := 0 } s).symm

theorem State.whileRunning_withHistory (t : State) :
    (s.withHistory p).whileRunning (t.withHistory p) = (s.whileRunning t).withHistory p :=
  (apply_ite (State.withHistory p) (s.status = .running) t s).symm

theorem raise_withHistory (kind : ErrorKind) (op : Option Word) (addr : Option Nat) :
    raise kind op addr (s.withHistory p) = mapNext (State.withHistory p) (raise kind op addr s) :=
  congrArg Host.Outcome.next (s.halt_withHistory p _)

theorem checked_withHistory {ok : Nat → Bool} {base n : Nat} {op : Word} {t u : State} (h : t = u.withHistory p) :
    checked ok base n op (s.withHistory p) (.next t) =
      mapNext (State.withHistory p) (checked ok base n op s (.next u)) := by
  subst h
  unfold checked
  cases firstBad ok base n with
  | none => rfl
  | some a => exact raise_withHistory p s _ _ _

/-! ## An instruction and a step -/

theorem exec_withHistory (i : Instr) : exec i (s.withHistory p) = mapNext (State.withHistory p) (exec i s) := by
  cases i with
  | ret =>
    cases hsp : s.sp with
    | none => rw [exec_ret_of_empty hsp, exec_ret_of_empty (s := s.withHistory p) hsp, State.halt_withHistory]; rfl
    | some k => rw [exec_ret_of_newest hsp, exec_ret_of_newest (s := s.withHistory p) hsp]; rfl
  | call nnn =>
    cases hslot : nextSlot s.sp with
    | none =>
      rw [exec_call_of_full nnn hslot, exec_call_of_full (s := s.withHistory p) nnn hslot, State.halt_withHistory]; rfl
    | some k => rw [exec_call_of_slot nnn hslot, exec_call_of_slot (s := s.withHistory p) nnn hslot]; rfl
  | ldVKey x =>
    cases hkey : s.key with
    | none => rw [exec_ldVKey_of_none x hkey, exec_ldVKey_of_none (s := s.withHistory p) x hkey]; rfl
    | some k => rw [exec_ldVKey_of_some x hkey, exec_ldVKey_of_some (s := s.withHistory p) x hkey]; rfl
  | seImm | sneImm | seReg | sneReg | skp | sknp => exact congrArg Host.Outcome.next (s.skipIf_withHistory p _)
  | beep x => exact congrArg (fun t => Host.Outcome.next t.advance) (s.emit_withHistory p _)
  | rnd x nn =>
    exact congrArg (writeResult x (nn &&& s.randByte)) (s.consumeRand_withHistory p)
  | drw x y n =>
    refine checked_withHistory p s ?_
    rw [State.readBlock_withHistory, State.drawn_withHistory]
    rfl
  | bcd x => exact checked_withHistory p s rfl
  | storeRegs x =>
    refine checked_withHistory p s ?_
    rw [State.storeBlock_withHistory]
    rfl
  | loadRegs x =>
    refine checked_withHistory p s ?_
    rw [State.loadBlock_withHistory]
    rfl
  | _ => rfl

theorem endCycle_withHistory (r : Result) :
    endCycle (mapNext (State.withHistory p) r) = mapNext (State.withHistory p) (endCycle r) := by
  cases r with
  | next t => cases ht : t.status with
    | running => rw [endCycle_running t ht]; exact endCycle_running (t.withHistory p) ht
    | halted => rw [endCycle_halted t ht]; exact endCycle_halted (t.withHistory p) ht
  | fault | refused => rfl

theorem runCycle_withHistory : runCycle (s.withHistory p) = mapNext (State.withHistory p) (runCycle s) := by
  have hstatus : (s.withHistory p).status = s.status := rfl
  have hfetchable : (s.withHistory p).fetchable = s.fetchable := rfl
  have hbytes : (s.withHistory p).fetchBytes = s.fetchBytes := rfl
  unfold runCycle
  rw [hstatus, hfetchable, hbytes]
  split
  · rfl
  · split
    · split
      · rw [exec_withHistory, endCycle_withHistory]
      · exact raise_withHistory p s _ _ _
    · exact raise_withHistory p s _ _ _

theorem deliver_withHistory (e : HostEvent) :
    deliver e (s.withHistory p) = mapNext (State.withHistory p) (deliver e s) := by
  cases e with
  | cycle => exact runCycle_withHistory p s
  | tick =>
    rw [deliver, deliver, State.tick_withHistory, State.whileRunning_withHistory]
    rfl
  | keyDown k =>
    rw [deliver, deliver, State.keyDown_withHistory, State.whileRunning_withHistory]
    rfl
  | keyUp k => exact congrArg Host.Outcome.next (State.whileRunning_withHistory p s (s.keyUp k))

theorem step_withHistory : step (s.withHistory p) = mapNext (State.withHistory p) (step s) :=
  deliver_withHistory p s.eventTaken s.nextEvent

end

/-- Settles O56: the step of the state without a history, with either history put before what it emits. -/
theorem outputIsNeverRead : Obligations.OutputIsNeverRead := by
  intro s t o h
  have hany (q : List OutEvent) : { s with out := q } = State.withHistory q { s with out := [] } := by
    rw [State.withHistory, List.append_nil]
  obtain ⟨u, hu⟩ := exists_step_next { s with out := [] }
  have hstep (q : List OutEvent) : step { s with out := q } = .next (u.withHistory q) := by
    rw [hany q, step_withHistory, hu, mapNext_next]
  obtain rfl : u.withHistory s.out = t := Host.Outcome.next.inj ((hstep s.out).symm.trans h)
  exact ⟨u.out, rfl, hstep o⟩

end Sys2Proof.Machine
end

section
/-! The illegal words (30_encoding.md R145): which words each category rejects, and from this the obligation about the
six bullets. -/

namespace Sys2Proof

section
variable (w : Word)

theorem fieldC_eq_div : fieldC w = w.toNat / 4096 := by
  have := w.isLt
  simp only [fieldC, field]
  omega

theorem fieldN_eq_mod : fieldN w = w.toNat % 16 := by
  simp only [fieldN, field]
  omega

theorem field_0_8_eq_mod : field w 0 8 = w.toNat % 256 := by
  simp only [field]
  omega

/-! ## The words each category rejects -/

theorem decodeSystem_error_iff (hc : fieldC w = 0x0) :
    (∃ e, decodeSystem w = .error e) ↔ w.toNat ≠ 0x00E0 ∧ w.toNat ≠ 0x00EE := by
  unfold decodeSystem
  rw [field_0_12_of_fieldC_eq_zero hc]
  split <;> simp_all

theorem decodeAlu_error_iff :
    (∃ e, decodeAlu w = .error e) ↔ w.toNat % 16 ∈ [0x8, 0x9, 0xA, 0xB, 0xC, 0xD, 0xF] := by
  have hn : w.toNat % 16 < 16 := Nat.mod_lt _ (by decide)
  unfold decodeAlu
  rw [fieldN_eq_mod]
  generalize w.toNat % 16 = n at hn
  interval_cases n <;> simp

theorem decodeKey_error_iff : (∃ e, decodeKey w = .error e) ↔ w.toNat % 256 ∉ [0x9E, 0xA1] := by
  unfold decodeKey
  rw [field_0_8_eq_mod]
  split <;> simp_all

theorem decodeMisc_error_iff :
    (∃ e, decodeMisc w = .error e) ↔ w.toNat % 256 ∉ [0x07, 0x0A, 0x15, 0x18, 0x1E, 0x29, 0x33, 0x55, 0x65] := by
  unfold decodeMisc
  rw [field_0_8_eq_mod]
  split <;> simp_all

/-- The two register skips reject every last nibble but 0. -/
theorem ite_fieldN_error_iff (i : Instr) (r : DecodeReject) :
    (∃ e, (if fieldN w = 0 then Except.ok i else .error r) = .error e) ↔ w.toNat % 16 ≠ 0 := by
  rw [fieldN_eq_mod]
  split <;> simp_all

end

/-- Settles O6: a word's category leaves one of the bullets, and the category's decoder rejects what the bullet lists;
`h_n` is the arm of category n - 1. -/
theorem illegalWordsAreThoseListed : Obligations.IllegalWordsAreThoseListed := by
  intro w
  have hlt := fieldC_lt w
  have hcat := fieldC_eq_div w
  unfold decodeWord
  split
  case h_1 hc => simp [decodeSystem_error_iff w hc, ← hcat, hc]
  case h_6 hc | h_10 hc => simp [ite_fieldN_error_iff, ← hcat, hc]
  case h_9 hc => simp [decodeAlu_error_iff, ← hcat, hc]
  case h_15 hc => simp [decodeKey_error_iff, ← hcat, hc]
  case h_16 =>
    simp only [imp_false] at *
    have hc : fieldC w = 0xF := by omega
    simp [decodeMisc_error_iff, ← hcat, hc]
  case h_2 hc | h_3 hc | h_4 hc | h_5 hc | h_7 hc | h_8 hc | h_11 hc | h_12 hc | h_13 hc | h_14 hc => simp [← hcat, hc]

end Sys2Proof
end

section
/-! Every instruction (10_state.md R40, R42; 60_exceptions.md R501, R503; 20_memory.md R102, R109): the registers it
writes, when it halts the core, and the low bytes of memory it keeps; and CXNN (43_reg_skip_index_jump_rand.md R303). -/

namespace Sys2Proof.Machine

/-! ## Registers -/

theorem State.reg_drawn_ne (s : State) (d : Canvas) {r : Reg} (h : r ≠ regF) : (s.drawn d).reg r = s.reg r :=
  (s.drawn_reg d r).trans (if_neg h)

/-- Settles O50, by the register writes each instruction is made of; a raise writes none. -/
theorem onlyNamedRegistersAreWritten : Obligations.OnlyNamedRegistersAreWritten := by
  intro i s t r h hr
  cases i with
  | cls | jp | ldI | jpV0 | ldDtV | beep | addI | ldGlyph => cases h; rfl
  | seImm | sneImm | seReg | sneReg | skp | sknp => cases h; exact State.reg_skipIf s _ r
  | ldImm | addImm | ldReg | orReg | andReg | xorReg | ldVDt =>
    cases h
    exact State.reg_setReg_ne s _ r _ (of_decide_eq_false hr)
  | addReg | subReg | shr | subn | shl =>
    cases h
    obtain ⟨hx, hflag⟩ := Bool.or_eq_false_iff.1 hr
    exact (State.reg_setReg_ne _ _ r _ (of_decide_eq_false hflag)).trans
      (State.reg_setReg_ne s _ r _ (of_decide_eq_false hx))
  | rnd =>
    cases h
    exact (State.reg_setReg_ne _ _ r _ (of_decide_eq_false hr)).trans (State.reg_consumeRand s r)
  | ldVKey =>
    obtain ⟨-, rfl⟩ | ⟨k, -, rfl⟩ := exec_ldVKey_cases h
    · rfl
    · exact State.reg_setReg_ne s _ r _ (of_decide_eq_false hr)
  | ret =>
    obtain ⟨-, rfl⟩ | ⟨k, -, rfl⟩ := exec_ret_cases h
    · rfl
    · rfl
  | call =>
    obtain ⟨-, rfl⟩ | ⟨k, -, rfl⟩ := exec_call_cases h
    · rfl
    · rfl
  | drw =>
    obtain ⟨_, -, -, -, rfl⟩ | ⟨-, rfl⟩ := checked_next_cases h
    · rfl
    · exact s.reg_drawn_ne _ (of_decide_eq_false hr)
  | bcd =>
    obtain ⟨_, -, -, -, rfl⟩ | ⟨-, rfl⟩ := checked_next_cases h
    · rfl
    · rfl
  | storeRegs x =>
    obtain ⟨_, -, -, -, rfl⟩ | ⟨-, rfl⟩ := checked_next_cases h
    · rfl
    · exact s.reg_storeBlock _ _ r
  | loadRegs x =>
    obtain ⟨_, -, -, -, rfl⟩ | ⟨-, rfl⟩ := checked_next_cases h
    · rfl
    · have hout : ¬ r.val < x.val + 1 := fun hlt => of_decide_eq_false hr (Nat.le_of_lt_succ hlt)
      exact (s.reg_loadBlock _ _ r x.isLt).trans (if_neg hout)

/-! ## Halts -/

/-- Settles O52: of the six, the branch that halts is the raise; every other branch leaves the status running. -/
theorem onlyListedInstructionsHalt : Obligations.OnlyListedInstructionsHalt := by
  intro i s t hrun h ht
  have hcommit {u : State} (hu : u.status = s.status) (hhalted : u.status = .halted) : False := by
    rw [hu, hrun] at hhalted
    cases hhalted
  cases i with
  | ret =>
    obtain ⟨-, rfl⟩ | ⟨k, -, rfl⟩ := exec_ret_cases h
    · exact ⟨rfl, _, _, haltedWith_halt _ _ _ s⟩
    · exact (hcommit rfl ht).elim
  | call =>
    obtain ⟨-, rfl⟩ | ⟨k, -, rfl⟩ := exec_call_cases h
    · exact ⟨rfl, _, _, haltedWith_halt _ _ _ s⟩
    · exact (hcommit rfl ht).elim
  | drw | bcd | storeRegs | loadRegs =>
    obtain ⟨_, -, -, -, rfl⟩ | ⟨-, rfl⟩ := checked_next_cases h
    · exact ⟨rfl, _, _, haltedWith_halt _ _ _ s⟩
    · exact (hcommit (by simp [State.drawn]) ht).elim
  | ldVKey =>
    obtain ⟨-, rfl⟩ | ⟨k, -, rfl⟩ := exec_ldVKey_cases h
    · exact (hcommit rfl ht).elim
    · exact (hcommit rfl ht).elim
  | seImm | sneImm | seReg | sneReg | skp | sknp => cases h; exact (hcommit (State.skipIf_status s _) ht).elim
  | rnd => cases h; exact (hcommit s.consumeRand_status ht).elim
  | cls | jp | ldImm | addImm | ldReg | orReg | andReg | xorReg | addReg | subReg | shr | subn | shl | ldI | jpV0 | ldVDt
  | ldDtV | beep | addI | ldGlyph => cases h; exact (hcommit rfl ht).elim

/-! ## Low memory -/

/-- The first address of a block that may be written lies above the protected bytes. -/
theorem progBase_le_of_storable {s : State} {base n : Nat} (hprotect : s.cfg.lowWriteProtect = true)
    (hok : ∀ k < n + 1, writable s.cfg (base + k) = true) : 0x200 ≤ base :=
  ((writable_iff _ _).1 (hok 0 n.succ_pos)).2 hprotect

/-- An instruction keeps the protected bytes: of those that commit, the frame of O51 gives memory to FX33 and FX55 only,
and the bytes these write (O46, O47) are above. -/
theorem exec_keeps_low_memory {i : Instr} {s t : State} {a : Nat} (hrun : s.status = .running) (hm : s.memCanonical)
    (hprotect : s.cfg.lowWriteProtect = true) (h : exec i s = .next t) (ha : a < 0x200) :
    t.readByte a = s.readByte a := by
  obtain ⟨r, rfl⟩ | hstatus := exec_halt_or_status_eq h
  · exact s.readByte_halt r a
  cases i with
  | bcd x =>
    obtain ⟨_, -, -, -, rfl⟩ | ⟨hok, -⟩ := checked_next_cases h
    · exact s.readByte_halt _ a
    · obtain ⟨u, hu, -, -, -, hkept, -⟩ :=
        (storesDecimalDigits s x hm).1 fun k hk => (writable_iff_storable s _).1 (hok k hk)
      obtain rfl : u = t := Host.Outcome.next.inj (hu.symm.trans h)
      exact hkept a (.inl (Nat.lt_of_lt_of_le ha (progBase_le_of_storable hprotect hok)))
  | storeRegs x =>
    obtain ⟨_, -, -, -, rfl⟩ | ⟨hok, -⟩ := checked_next_cases h
    · exact s.readByte_halt _ a
    · obtain ⟨u, hu, -, hkept, -⟩ :=
        (storesTheRegisterBlock s x hm).1 fun k hk => (writable_iff_storable s _).1 (hok k hk)
      obtain rfl : u = t := Host.Outcome.next.inj (hu.symm.trans h)
      exact hkept a (.inl (Nat.lt_of_lt_of_le ha (progBase_le_of_storable hprotect hok)))
  | _ => exact onlyListedPartsAreWritten _ s t hrun h (hstatus.trans hrun) .memory (by simp [writesParts]) a

/-- Settles O54, case by case along `step_cases`: only an instruction can reach memory at all. -/
theorem lowMemoryIsNeverWritten : Obligations.LowMemoryIsNeverWritten := by
  intro s t a hm hprotect h ha
  obtain ⟨-, rfl⟩ | ⟨-, -, rfl⟩ | ⟨k, -, -, rfl⟩ | ⟨k, -, -, rfl⟩ | ⟨-, -, -, rfl⟩ | ⟨e, -, -, -, -, rfl⟩ |
    ⟨i, rest, u, hrun, -, -, -, hu, hc⟩ := step_cases s t h
  · rfl
  · exact s.eventTaken.readByte_tick a
  · exact s.eventTaken.readByte_keyDown k a
  · rfl
  · rfl
  · rfl
  · have hkept : u.readByte a = s.readByte a := exec_keeps_low_memory (s := s.eventTaken) hrun hm hprotect hu ha
    obtain ⟨-, rfl⟩ | ⟨-, rfl⟩ := hc
    · exact hkept
    · exact hkept

/-! ## The random byte -/

/-- Settles O35: the register write of CXNN follows the draw, and the draw is a supplied byte or a free value. -/
theorem randomByteUnderAMask : Obligations.RandomByteUnderAMask := by
  intro s x nn
  obtain ⟨t, hnext, hreg, hpc, hregs, hframe⟩ := writeResult_next x (nn &&& s.randByte) s.consumeRand
  obtain ⟨hrandIn, hdraws⟩ : t.randIn = s.consumeRand.randIn ∧ t.draws = s.consumeRand.draws :=
    hframe .random (by decide)
  refine ⟨t, hnext, fun b rest hsupplied => ?_, fun hempty => ?_, hpc.trans (by rw [s.consumeRand_pc]),
    fun r hr => (hregs r hr).trans (s.reg_consumeRand r),
    ((onlyChanged_refl _ s).andThen (onlyChanged_consumeRand s)).andThen hframe⟩
  · obtain ⟨hbyte, hrest, hcount⟩ := s.rand_supplied b rest hsupplied
    exact ⟨by rw [hreg, hbyte], hrandIn.trans hrest, hdraws.trans hcount⟩
  · obtain ⟨hbyte, hrest, hcount⟩ := s.rand_free hempty
    exact ⟨by rw [hreg, hbyte], hrandIn.trans hrest, hdraws.trans hcount⟩

end Sys2Proof.Machine
end

section
/-! The invariant at reset and after loading (10_state.md section 10; 70_reset_and_hazards.md R601). -/

namespace Sys2Proof.Machine

theorem inv_resetWith (c : Config) (v : ResetValues) : (State.resetWith c v).inv := by
  have hentry : (0x200 : Word).toNat ≤ 0x10FE := by decide
  refine ⟨rfl, Nat.le_refl _, by simp [State.haltRecorded, State.resetWith], hentry, fun k => ?_⟩
  have hzero : (State.resetWith c v).stack.get k = 0 := Vector.get_replicate 16 0 k
  rw [hzero]
  decide

/-- An image that fits keeps the empty memory canonical, and nothing else of the invariant sees it. -/
theorem inv_loaded (c : Config) (v : ResetValues) (image : List Byte) (events : List HostEvent) (rand : List Byte)
    (h : image.length ≤ maxImage) : (State.loaded c v image events rand).inv := by
  obtain ⟨-, hlatch, hhalt, hpc, hstack⟩ := inv_resetWith c v
  exact ⟨Memory.wf_place c image [] progBase (Nat.add_le_of_le_sub' (by decide) h) rfl, hlatch, hhalt, hpc, hstack⟩

/-- Settles O59: `State.reset` is one of the resets, whatever the open W is. -/
theorem resetMeetsTheInvariant : Obligations.ResetMeetsTheInvariant :=
  inv_resetWith defaultConfig defaultResetValues

/-- Settles O60: a machine that boots is the loaded one, and a longer image boots none. -/
theorem bootMeetsTheInvariant : Obligations.BootMeetsTheInvariant := by
  intro c v image events rand s h
  by_cases hfit : image.length ≤ maxImage
  · rw [State.boot_of_le c v image events rand hfit] at h
    cases h
    exact inv_loaded c v image events rand hfit
  · rw [State.boot_of_lt c v image events rand (Nat.lt_of_not_le hfit)] at h
    cases h

end Sys2Proof.Machine
end
